-- ==== Sys2Proof/Word.lean ====
section
/-! DEFINITION. The two word types of the core (00_scope R8): the byte and the 16-bit field. -/

namespace Sys2Proof

/-- A byte, 8 bits, 0x00-0xFF (R8). -/
abbrev Byte := BitVec 8

/-- A 16-bit unsigned field: a register as WRREG and RDREG see it (R15), a MEC, a length, a year, a
frequency operand (R43), the CRC register (R54). -/
abbrev Half := BitVec 16

end Sys2Proof
end

