-- ==== Sys2Proof/Syntax.lean ====
section
/-! DEFINITION. The commands of the core: one constructor per row of spec/opcode_table.json (30_encoding R44, R45).
A count field (L of formats B and G, N of format L) is not a field of the constructor: it is the length of its list. -/

namespace Sys2Proof

/-- A command of the core, its operands assembled as R43 says. -/
inductive Instr where
  /-- ENC_PI, 0x01, format Z (R68). -/
  | encPi
  /-- ENC_PS, 0x02, format B (R72). -/
  | encPs (text : List Byte)
  /-- ENC_TPTA, 0x03, format Z (R67). -/
  | encTpta
  /-- ENC_DI, 0x04, format Z (R71). -/
  | encDi
  /-- ENC_MS, 0x05, format Z (R70). -/
  | encMs
  /-- ENC_PTY, 0x07, format Z (R69). -/
  | encPty
  /-- ENC_RT, 0x0A, format B (R73). -/
  | encRt (text : List Byte)
  /-- ENC_CLOCK, 0x0D, format C (R74). -/
  | encClock (year : Half) (month day hour minute second : Byte)
  /-- ENC_AF, 0x13, format L (R83). -/
  | encAf (freqs : List Half)
  /-- GROUP, 0x80, format G (R60). -/
  | group (mec : Half) (data : List Byte)
  /-- FRAME, 0x81, format B (R61). -/
  | frame (data : List Byte)
  /-- CRC16, 0x82, format B (R62). -/
  | crc16 (data : List Byte)
  /-- STUFF, 0x83, format B (R63). -/
  | stuff (data : List Byte)
  /-- AFMAP, 0x84, format F (R81). -/
  | afmap (freq : Half)
  /-- AFPAYLOAD, 0x85, format L (R82). -/
  | afpayload (freqs : List Half)
  /-- WRREG, 0xC0, format W (R84). -/
  | wrreg (addr : Byte) (value : Half)
  /-- RDREG, 0xC1, format R (R85). -/
  | rdreg (addr : Byte)
  /-- ILLEGAL, any opcode byte of R45, format X (R86). -/
  | illegal (op : Byte)
deriving DecidableEq, Repr

end Sys2Proof
end

