-- ==== Sys2Proof/WellFormed.lean ====
section
/-! DEFINITION. Which terms of `Instr` a command stream can hold: the count fields fit their widths
(30_encoding R42, R43) and an illegal command's byte is one the opcode map leaves out (R45). -/

namespace Sys2Proof

/-- The illegal opcodes, in R45's own listing. -/
def isIllegalOpcode (op : Byte) : Bool :=
  let v := op.toNat
  v == 0x00 || v == 0x06 || v == 0x08 || v == 0x09 || v == 0x0B || v == 0x0C ||
    (0x0E ≤ v && v ≤ 0x12) || (0x14 ≤ v && v ≤ 0x7F) || (0x86 ≤ v && v ≤ 0xBF) || 0xC2 ≤ v

/-- A byte count L is 16 bits wide (R42, formats B and G). -/
def fitsByteCount (data : List Byte) : Bool := data.length ≤ 65535

/-- An entry count N is 8 bits wide (R42, format L). -/
def fitsEntryCount (freqs : List Half) : Bool := freqs.length ≤ 255

/-- A command that some byte sequence encodes (log entry 14). -/
def Instr.wellFormed : Instr → Bool
  | .encPi | .encTpta | .encDi | .encMs | .encPty => true
  | .encPs text | .encRt text => fitsByteCount text
  | .encClock _ _ _ _ _ _ => true
  | .encAf freqs | .afpayload freqs => fitsEntryCount freqs
  | .group _ data => fitsByteCount data
  | .frame data | .crc16 data | .stuff data => fitsByteCount data
  | .afmap _ | .wrreg _ _ | .rdreg _ => true
  | .illegal op => isIllegalOpcode op

end Sys2Proof
end

