-- ==== Sys2Proof/Decode.lean ====
section
/-! DEFINITION. The opcode map, the length of a command, the decoder and after it the encoder
(30_encoding R41-R47), with the byte-order helpers both use (20_memory R31). -/

namespace Sys2Proof

/-! ### Byte order -/

/-- `v[15:8]` (R9). -/
def hi8 (v : Half) : Byte := v.extractLsb' 8 8

/-- `v[7:0]` (R9). -/
def lo8 (v : Half) : Byte := v.extractLsb' 0 8

/-- The two bytes of a 16-bit field, most significant first (R9, R31). -/
def be16 (v : Half) : List Byte := [hi8 v, lo8 v]

/-- The value of a 16-bit field whose bytes are `hi` and `lo`: `(hi << 8) | lo`, zero-extended (R43). -/
def join16 (hi lo : Byte) : Half := (hi.setWidth 16 <<< 8) ||| lo.setWidth 16

/-- The 16-bit fields of a format L command's entries, in order (R42). -/
def joinEntries : List Byte → List Half
  | hi :: lo :: rest => join16 hi lo :: joinEntries rest
  | _ => []

/-! ### The opcode map -/

/-- The 17 defined opcodes (R44). -/
inductive Opcode where
  | encPi | encPs | encTpta | encDi | encMs | encPty | encRt | encClock | encAf
  | group | frame | crc16 | stuff | afmap | afpayload | wrreg | rdreg
deriving DecidableEq, Repr

/-- The command formats of R42. -/
inductive Format where
  | z | b | g | c | f | l | w | r | x
deriving DecidableEq, Repr

/-- The opcodes in the order of R44's table. -/
def Opcode.all : List Opcode :=
  [.encPi, .encPs, .encTpta, .encDi, .encMs, .encPty, .encRt, .encClock, .encAf,
   .group, .frame, .crc16, .stuff, .afmap, .afpayload, .wrreg, .rdreg]

/-- The opcode byte (R44's first column). -/
def Opcode.code : Opcode → Byte
  | .encPi => 0x01
  | .encPs => 0x02
  | .encTpta => 0x03
  | .encDi => 0x04
  | .encMs => 0x05
  | .encPty => 0x07
  | .encRt => 0x0A
  | .encClock => 0x0D
  | .encAf => 0x13
  | .group => 0x80
  | .frame => 0x81
  | .crc16 => 0x82
  | .stuff => 0x83
  | .afmap => 0x84
  | .afpayload => 0x85
  | .wrreg => 0xC0
  | .rdreg => 0xC1

/-- The opcode's format (R44's third column). -/
def Opcode.format : Opcode → Format
  | .encPi | .encTpta | .encDi | .encMs | .encPty => .z
  | .encPs | .encRt | .frame | .crc16 | .stuff => .b
  | .group => .g
  | .encClock => .c
  | .afmap => .f
  | .encAf | .afpayload => .l
  | .wrreg => .w
  | .rdreg => .r

/-- The opcode a byte names, if any (R44, R45). -/
def Opcode.ofByte? (b : Byte) : Option Opcode := Opcode.all.find? fun o => o.code == b

/-- The format an opcode byte selects: X where no row of R44 names it (R42, R45). -/
def formatOf (b : Byte) : Format :=
  match Opcode.ofByte? b with
  | some o => o.format
  | none => .x

/-! ### Length -/

/-- CmdLength of R46: `none` while the bytes at hand do not yet determine it. -/
def cmdLength : List Byte → Option Nat
  | [] => none
  | op :: args =>
    match formatOf op with
    | .z | .x => some 1
    | .r => some 2
    | .f => some 3
    | .w => some 4
    | .c => some 8
    | .b =>
      match args with
      | l1 :: l0 :: _ => some (3 + (join16 l1 l0).toNat)
      | _ => none
    | .g =>
      match args with
      | _ :: _ :: l1 :: l0 :: _ => some (5 + (join16 l1 l0).toNat)
      | _ => none
    | .l =>
      match args with
      | n :: _ => some (2 + 2 * n.toNat)
      | _ => none

/-- A command is complete when at least CmdLength bytes are available (R46). -/
def isComplete (bs : List Byte) : Bool :=
  match cmdLength bs with
  | some n => n ≤ bs.length
  | none => false

/-! ### The decoder -/

/-- Operand byte `k`, counted from the byte after the opcode. A complete command has every byte its format
reads, so the zero stands for no byte of it. -/
def argByte (args : List Byte) (k : Nat) : Byte := args.getD k 0

/-- The 16-bit operand at operand bytes `k` and `k + 1` (R43). -/
def argHalf (args : List Byte) (k : Nat) : Half := join16 (argByte args k) (argByte args (k + 1))

/-- The command that an opcode byte and exactly its operand bytes spell (R42, R43, R45). -/
def decodeFields (op : Byte) (args : List Byte) : Instr :=
  match Opcode.ofByte? op with
  | none => .illegal op
  | some .encPi => .encPi
  | some .encPs => .encPs (args.drop 2)
  | some .encTpta => .encTpta
  | some .encDi => .encDi
  | some .encMs => .encMs
  | some .encPty => .encPty
  | some .encRt => .encRt (args.drop 2)
  | some .encClock =>
    .encClock (argHalf args 0) (argByte args 2) (argByte args 3) (argByte args 4) (argByte args 5)
      (argByte args 6)
  | some .encAf => .encAf (joinEntries (args.drop 1))
  | some .group => .group (argHalf args 0) (args.drop 4)
  | some .frame => .frame (args.drop 2)
  | some .crc16 => .crc16 (args.drop 2)
  | some .stuff => .stuff (args.drop 2)
  | some .afmap => .afmap (argHalf args 0)
  | some .afpayload => .afpayload (joinEntries (args.drop 1))
  | some .wrreg => .wrreg (argByte args 0) (argHalf args 1)
  | some .rdreg => .rdreg (argByte args 0)

/-- What the decoder makes of the bytes at hand. Every byte sequence that is long enough is a command (R45), so the
only rejections are those of a sequence that is too short, each by its name. -/
inductive Decoded where
  /-- A complete command, and the bytes after it. -/
  | command (i : Instr) (rest : List Byte)
  /-- There is no byte at hand. -/
  | noOpcode
  /-- The opcode is there; the bytes that hold its count field are not all there. -/
  | lengthUnknown
  /-- The command is `need` bytes long and fewer are there. -/
  | short (need : Nat)
deriving DecidableEq, Repr

/-- The decoder, total on any bytes (R41-R46). -/
def decode : List Byte → Decoded
  | [] => .noOpcode
  | op :: args =>
    match cmdLength (op :: args) with
    | none => .lengthUnknown
    | some n =>
      if args.length + 1 < n then .short n
      else .command (decodeFields op (args.take (n - 1))) (args.drop (n - 1))

/-! ### The encoder -/

/-- The L field of a byte sequence, 16 bits (R42, R43). -/
def byteCount (data : List Byte) : List Byte := be16 (BitVec.ofNat 16 data.length)

/-- The N field of an entry list, 8 bits (R42, R43). -/
def entryCount (freqs : List Half) : List Byte := [BitVec.ofNat 8 freqs.length]

/-- A format B command: OP, L, DATA (R42). -/
def encodeB (o : Opcode) (data : List Byte) : List Byte := o.code :: (byteCount data ++ data)

/-- A format L command: OP, N, the entries (R42). -/
def encodeL (o : Opcode) (freqs : List Half) : List Byte :=
  o.code :: (entryCount freqs ++ freqs.flatMap be16)

/-- The bytes of a well-formed command, from the field layouts of R42. -/
def encode : Instr → List Byte
  | .encPi => [Opcode.encPi.code]
  | .encPs text => encodeB .encPs text
  | .encTpta => [Opcode.encTpta.code]
  | .encDi => [Opcode.encDi.code]
  | .encMs => [Opcode.encMs.code]
  | .encPty => [Opcode.encPty.code]
  | .encRt text => encodeB .encRt text
  | .encClock year month day hour minute second =>
    Opcode.encClock.code :: (be16 year ++ [month, day, hour, minute, second])
  | .encAf freqs => encodeL .encAf freqs
  | .group mec data => Opcode.group.code :: (be16 mec ++ byteCount data ++ data)
  | .frame data => encodeB .frame data
  | .crc16 data => encodeB .crc16 data
  | .stuff data => encodeB .stuff data
  | .afmap freq => Opcode.afmap.code :: be16 freq
  | .afpayload freqs => encodeL .afpayload freqs
  | .wrreg addr value => Opcode.wrreg.code :: addr :: be16 value
  | .rdreg addr => [Opcode.rdreg.code, addr]
  | .illegal op => [op]

/-! ### The opcode table's own numbering -/

/-- The first `n` bytes of a word numbered as spec/opcode_table.json numbers it: bits 7..0 are byte 0. -/
def wordBytes (n w : Nat) : List Byte := (List.range n).map fun k => BitVec.ofNat 8 (w >>> (8 * k))

/-- The bytes of the command whose first `nbits` bits are those of `w`, every later bit zero. Five bytes determine a
command's length (R46); the command is then cut, or filled with zeros, to that length. -/
def tableBytes (nbits w : Nat) : List Byte :=
  let head := wordBytes (max 5 ((nbits + 7) / 8)) (w % 2 ^ nbits)
  match cmdLength head with
  | some n => head.take n ++ List.replicate (n - head.length) 0
  | none => head

/-- The command the decoder reads from the bits of an opcode-table word. -/
def decodeTableWord (nbits w : Nat) : Option Instr :=
  match decode (tableBytes nbits w) with
  | .command i _ => some i
  | _ => none

end Sys2Proof
end

