-- ==== Sys2Proof/Machine/Flags.lean ====
section
/-! DEFINITION. The core has no flags, condition codes or predicates (10_state R25). The only outcome indicator is the
status byte of a response record, given here (60_exceptions R87). -/

namespace Sys2Proof.Machine

/-- The status of a response record (R87). -/
inductive Status where
  | ok | empty | errAfLength | errInvalidFreq | errIllegalOpcode | errBadRegister
deriving DecidableEq, Repr

/-- The status byte (R87's first column). -/
def Status.code : Status → Byte
  | .ok => 0x00
  | .empty => 0x01
  | .errAfLength => 0x02
  | .errInvalidFreq => 0x03
  | .errIllegalOpcode => 0x04
  | .errBadRegister => 0x05

end Sys2Proof.Machine
end

