-- ==== Sys2Proof/Config.lean ====
section
/-! DEFINITION. What an implementation fixes: the two buffer depths, parameters of the model (00_scope R7, K16).
They are opaque, so that a claim proved of this model holds for every depth (D21, log entry 3). -/

namespace Sys2Proof

/-- IN_DEPTH minus one: any natural number (log entry 3). -/
opaque Config.inDepthPred : Nat

/-- OUT_DEPTH minus one: any natural number (log entry 3). -/
opaque Config.outDepthPred : Nat

/-- IN_DEPTH, the command-input buffer's depth in bytes, at least 1 (R7). -/
def Config.inDepth : Nat := Config.inDepthPred + 1

/-- OUT_DEPTH, the response-output buffer's depth in bytes, at least 1 (R7). -/
def Config.outDepth : Nat := Config.outDepthPred + 1

end Sys2Proof
end

