-- ==== Sys2Proof/Machine/State.lean ====
section
/-! DEFINITION. The state of the core (10_state R13), its reset value (R28), and the reasons a step could stop for. -/

namespace Sys2Proof.Machine

/-- The configuration register file, each register at its used bits (10_state R15). The reserved bits of R22 are
write-ignored and read as zero, so nothing of them is held (log entry 8). -/
structure RegFile where
  /-- PI, address 0x00: program identification code (R16). -/
  pi : BitVec 16
  /-- PTY, address 0x01: program type code, all eight bits stored (R17). -/
  pty : BitVec 8
  /-- TPTA, address 0x02: TP = bit 1, TA = bit 0 (R18). -/
  tpta : BitVec 2
  /-- MS, address 0x03: 1 = music, 0 = speech (R19). -/
  ms : BitVec 1
  /-- DI, address 0x04: decoder-information nibble, uninterpreted (R20). -/
  di : BitVec 4
  /-- MODE, address 0x05: bit 0 is CLKVAR, 0 = dayFirst, 1 = yearFirst (R21). -/
  mode : BitVec 1
deriving DecidableEq, Repr

end Sys2Proof.Machine

namespace Sys2Proof.Machine

/-- The architectural state of the core (10_state R13). Plain data. -/
structure State where
  /-- The configuration register file (R13 item 1). -/
  regs : RegFile
  /-- The command-input buffer, oldest byte first (R13 item 2). -/
  inBuf : List Byte
  /-- The response-output buffer, oldest byte first (R13 item 3). -/
  outBuf : List Byte
  /-- The decoder state: the consumed bytes of a command that is not yet complete (R13 item 4). -/
  decoder : List Byte
  /-- What is left of the executing command's response record: the bytes not yet in the response-output buffer
  (implied by R7, R97 and R102; log entry 2). -/
  emitting : List Byte
  /-- The command position: command-stream bytes consumed since the last reset (R24). -/
  position : Nat
deriving DecidableEq, Repr

/-- Why the core stops. It never does: it has no trap (60_exceptions R91), and 'nothing the host does can make the core
fault' (70_reset R105). Nobody raises a fault, so there is no constructor, which is safe to rely on: it is the spec's
own statement (log entry 7). -/
inductive Fault where
deriving DecidableEq, Repr

/-- Why a command has no meaning here. -/
inductive Refusal where
  /-- Raised only by an arm of `exec` whose command has no meaning yet. Safe: the model stops. No arm raises it. -/
  | notModelled (mnemonic : String)
deriving DecidableEq, Repr

/-- Every configuration register at its reset value (R28). -/
def RegFile.reset : RegFile := { pi := 0, pty := 0, tpta := 0, ms := 0, di := 0, mode := 0 }

/-- The core right after reset (R28, R97): registers zero, buffers and decoder empty, no record being emitted,
command position 0. -/
def State.reset : State :=
  { regs := .reset, inBuf := [], outBuf := [], decoder := [], emitting := [], position := 0 }

end Sys2Proof.Machine
end

