-- ==== Sys2Proof/Machine/Operands.lean ====
section
/-! DEFINITION. The operand forms of the field encoders: the fixed-width text former (42_field_encoders R65) and the
payload bytes the encoders take from the register file (R64). -/

namespace Sys2Proof.Machine

/-- The pad byte of both text fields (R65, D14). -/
def padByte : Byte := 0x20

/-- PadTrunc: exactly `w` bytes, the text's first ones, then pad bytes (R65). -/
def padTrunc (s : List Byte) (w : Nat) : List Byte :=
  s.take w ++ List.replicate (w - (s.take w).length) padByte

/-- The TP/TA payload byte, 'bit1=TP, bit0=TA' (R64, R67). -/
def RegFile.tptaByte (r : RegFile) : Byte := r.tpta.setWidth 8

/-- The music/speech payload byte, '1=music,0=speech' (R64, R70). -/
def RegFile.msByte (r : RegFile) : Byte := r.ms.setWidth 8

/-- The decoder-information payload byte: the nibble in the low four bits (R64, R71). -/
def RegFile.diByte (r : RegFile) : Byte := r.di.setWidth 8

/-- CLKVAR = 1 selects yearFirst (R21). -/
def RegFile.yearFirst (r : RegFile) : Bool := r.mode == 1

end Sys2Proof.Machine
end

