-- ==== Sys2Proof/Machine/Ops.lean ====
section
/-! DEFINITION. The named operations over the state: the response record and `Respond` and `raise`
(00_scope R11, 30_encoding R48), and the register file's read and write (44_registers R84, R85).
The core has no trap (60_exceptions R91): `raise` is what stands here for taking an exception, and there is no return
from one. -/

namespace Sys2Proof.Machine

/-- What a step and a meaning answer. -/
abbrev Result := Host.Outcome State Fault Refusal

/-- The four bytes of a 32-bit number, most significant first (R9). -/
def be32 (n : Nat) : List Byte :=
  let v := BitVec.ofNat 32 n
  [v.extractLsb' 24 8, v.extractLsb' 16 8, v.extractLsb' 8 8, v.extractLsb' 0 8]

/-- A response record: status, 32-bit length, result bytes (R48). -/
def record (st : Status) (result : List Byte) : List Byte :=
  st.code :: (be32 result.length ++ result)

/-- The response stream the host has yet to take: the output buffer, then the record still being handed to it. -/
def State.responseStream (s : State) : List Byte := s.outBuf ++ s.emitting

/-- The state with bytes appended to the response stream. -/
def State.enqueue (s : State) (bytes : List Byte) : State := { s with emitting := s.emitting ++ bytes }

/-- The state with another register file. -/
def State.setRegs (s : State) (r : RegFile) : State := { s with regs := r }

/-- `Respond(status, bytes)`: append one response record and end the command (R11, R48). -/
def respond (st : Status) (result : List Byte) (s : State) : Result := .next (s.enqueue (record st result))

/-- `raise <Status>`: `Respond(<Status>, [])`; nothing traps, nothing is saved, no mode changes (R11, R91). -/
def raise (st : Status) (s : State) : Result := respond st [] s

/-- Reads the register at an address, zero above its used bits; `none` at a reserved address (R15, R85). -/
def RegFile.read (r : RegFile) (addr : Byte) : Option Half :=
  match addr.toNat with
  | 0 => some r.pi
  | 1 => some (r.pty.setWidth 16)
  | 2 => some (r.tpta.setWidth 16)
  | 3 => some (r.ms.setWidth 16)
  | 4 => some (r.di.setWidth 16)
  | 5 => some (r.mode.setWidth 16)
  | _ => none

/-- Writes the used bits of the register at an address, dropping the reserved ones; `none` at a reserved address
(R15, R22, R84). -/
def RegFile.write (r : RegFile) (addr : Byte) (v : Half) : Option RegFile :=
  match addr.toNat with
  | 0 => some { r with pi := v }
  | 1 => some { r with pty := v.setWidth 8 }
  | 2 => some { r with tpta := v.setWidth 2 }
  | 3 => some { r with ms := v.setWidth 1 }
  | 4 => some { r with di := v.setWidth 4 }
  | 5 => some { r with mode := v.setWidth 1 }
  | _ => none

end Sys2Proof.Machine
end

