-- ==== Sys2Proof/Machine/GroupFrame.lean ====
section
/-! DEFINITION. The group builder, the CRC-16 generator, the byte-stuffer, the frame builder, and the four commands
that expose them (41_group_frame R53-R63). -/

namespace Sys2Proof.Machine

/-- BuildGroup: the three-byte message header before the data (R53). -/
def buildGroup (mec : Half) (data : List Byte) : List Byte :=
  if 0xFF < mec.toNat then [hi8 mec, lo8 mec, 0x00] ++ data
  else [lo8 mec, 0x00, 0x00] ++ data

/-- One of the eight rounds a byte takes through the CRC register (R54). -/
def crcRound (c : Half) : Half :=
  if c.getLsbD 15 then (c <<< 1) ^^^ 0x1021 else c <<< 1

/-- One byte through the CRC register, most significant bit first (R54). -/
def crcByte (c : Half) (b : Byte) : Half := Nat.repeat crcRound 8 (c ^^^ (b.setWidth 16 <<< 8))

/-- The CRC register after a byte sequence, from a given content: its bytes one after the other (R54). The match only reads
the register off as a number before the next byte, so that evaluating a long sequence in the kernel goes no deeper than one
byte; `crcRun_eq_foldl` says that the function is the plain fold. -/
def crcRun (c : Half) : List Byte → Half
  | [] => c
  | b :: s =>
    match (crcByte c b).toNat with
    | 0 => crcRun 0 s
    | n + 1 => crcRun (BitVec.ofNat 16 (n + 1)) s

/-- CRC16: polynomial 0x1021, initial register 0xFFFF, final XOR 0xFFFF (R54). -/
def crc16Of (s : List Byte) : Half := crcRun 0xFFFF s ^^^ 0xFFFF

/-- The two delimiter values, which stuffing marks (R55, R57). -/
def isDelimiter (b : Byte) : Bool := b == 0xFE || b == 0xFF

/-- ByteStuff: a byte 0xFD after every 0xFE and every 0xFF (R55). -/
def byteStuff (s : List Byte) : List Byte := s.flatMap fun b => if isDelimiter b then [b, 0xFD] else [b]

/-- The length header: three zero bytes, then the message length mod 256 (R57, R58). -/
def lengthHeader (m : List Byte) : List Byte := [0x00, 0x00, 0x00, BitVec.ofNat 8 m.length]

/-- What a frame's CRC covers, before stuffing (R57). -/
def framePayload (m : List Byte) : List Byte := lengthHeader m ++ m

/-- What lies between a frame's delimiters, before stuffing (R57). -/
def frameBody (m : List Byte) : List Byte := framePayload m ++ be16 (crc16Of (framePayload m))

/-- BuildFrame: the delimiters around the stuffed header, message and CRC (R50, R57). -/
def buildFrame (m : List Byte) : List Byte := [0xFE] ++ byteStuff (frameBody m) ++ [0xFF]

/-- GROUP: one message without framing it (R60). -/
def execGroup (mec : Half) (data : List Byte) (s : State) : Result := respond .ok (buildGroup mec data) s

/-- FRAME: frame a message given whole, of any length (R61, R58). -/
def execFrame (data : List Byte) (s : State) : Result := respond .ok (buildFrame data) s

/-- CRC16: the CRC of a byte sequence, high byte first (R62). -/
def execCrc16 (data : List Byte) (s : State) : Result := respond .ok (be16 (crc16Of data)) s

/-- STUFF: byte-stuff a sequence (R63). -/
def execStuff (data : List Byte) (s : State) : Result := respond .ok (byteStuff data) s

end Sys2Proof.Machine
end

