-- ==== Sys2Proof/Machine/FieldEncoders.lean ====
section
/-! DEFINITION. The fixed-width bitfield encoders: five that encode a configuration register, two text encoders and the
proprietary clock group (42_field_encoders R64-R74). -/

namespace Sys2Proof.Machine

/-- The last step of every field encoder: the frame of a group, status OK (R64). -/
def respondGroup (mec : Half) (payload : List Byte) (s : State) : Result :=
  respond .ok (buildFrame (buildGroup mec payload)) s

/-- The RT sub-header, always present and no part of the 64 text bytes (R64, R73, K9). -/
def rtSubHeader : List Byte := [0x41, 0x00]

/-- The PS field's width in bytes (R7). -/
def psWidth : Nat := 8

/-- The RT text field's width in bytes (R7). -/
def rtWidth : Nat := 64

/-- The clock message, built directly: MEC 0x0D19, the explicit group type 0x06, then the date and time bytes unchanged in
the layout CLKVAR selects (R74). -/
def clockMessage (yearFirst : Bool) (year : Half) (month day hour minute second : Byte) : List Byte :=
  if yearFirst then
    [0x0D, 0x19, 0x06, BitVec.ofNat 8 (year.toNat % 100), month, day, hour, minute, second, 0x00, 0x00]
  else [0x0D, 0x19, 0x06, day, hour, minute, second, 0x00, 0x00]

/-- ENC_TPTA: the TP/TA frame (R67). -/
def execEncTpta (s : State) : Result := respondGroup 0x03 [s.regs.tptaByte] s

/-- ENC_PI: the PI frame, the code big-endian (R68). -/
def execEncPi (s : State) : Result := respondGroup 0x01 (be16 s.regs.pi) s

/-- ENC_PTY: the PTY frame, the stored byte not range-checked (R69, R17). -/
def execEncPty (s : State) : Result := respondGroup 0x07 [s.regs.pty] s

/-- ENC_MS: the music/speech frame (R70). -/
def execEncMs (s : State) : Result := respondGroup 0x05 [s.regs.msByte] s

/-- ENC_DI: the decoder-information frame (R71). -/
def execEncDi (s : State) : Result := respondGroup 0x04 [s.regs.diByte] s

/-- ENC_PS: the frame of the text in eight bytes (R72). -/
def execEncPs (text : List Byte) (s : State) : Result := respondGroup 0x02 (padTrunc text psWidth) s

/-- ENC_RT: the frame of the sub-header and the text in 64 bytes (R73). -/
def execEncRt (text : List Byte) (s : State) : Result :=
  respondGroup 0x0A (rtSubHeader ++ padTrunc text rtWidth) s

/-- ENC_CLOCK: the clock frame (R74). -/
def execEncClock (year : Half) (month day hour minute second : Byte) (s : State) : Result :=
  respond .ok (buildFrame (clockMessage s.regs.yearFirst year month day hour minute second)) s

end Sys2Proof.Machine
end

