-- ==== Sys2Proof/Machine/Af.lean ====
section
/-! DEFINITION. The AF frequency-to-code mapper, the AF list-length selector and the three commands over them
(43_af R75-R83). The layout constants the spec transcribes without explanation each have a name (K9). -/

namespace Sys2Proof.Machine

/-- EncodeAF of a frequency in units of 10 kHz; `none` is REJECT. Ties round up (R76, R77). -/
def encodeAf (f : Half) : Option Byte :=
  if f.toNat < 8760 ∨ 10790 < f.toNat then none
  else
    let code := (f.toNat - 8745) / 10
    if code < 1 ∨ 204 < code then none else some (BitVec.ofNat 8 code)

/-- The codes of a list's valid frequencies, in input order, duplicates kept (R79, D17). -/
def afCodes (fs : List Half) : List Byte := fs.filterMap encodeAf

/-- The trailer byte of the one-code layout (R79). -/
def afTrail1 : Byte := 0x60
/-- AF_TRAIL2, the last trailer byte of the two-code layout (R79, K9). -/
def afTrail2 : Byte := 0xD3
/-- AF_TRAIL3, the last trailer byte of the three-code layout (R79, K9). -/
def afTrail3 : Byte := 0xEE
/-- AF_TRAIL_LONG, the last trailer byte of the long layout (R79, K9). -/
def afTrailLong : Byte := 0xAC
/-- AF_LONG_HDR, the fourth byte of the long layout, the same for every count (R79, K9). -/
def afLongHdr : Byte := 0xEB

/-- What the selector answers (R79). -/
inductive AfPayload where
  /-- n = 0: nothing to send. -/
  | empty
  /-- n > 11: an out-of-range error. -/
  | tooMany
  /-- A payload. -/
  | payload (bytes : List Byte)
deriving DecidableEq, Repr

/-- Zero-padding to a total length (R79). -/
def zeroPad (bytes : List Byte) (w : Nat) : List Byte := bytes ++ List.replicate (w - bytes.length) 0x00

/-- The list-length selector on the valid codes: one layout for one code, one for two and three, one for four to eleven
(R79). -/
def selectAf (codes : List Byte) : AfPayload :=
  match codes.length with
  | 0 => .empty
  | 1 => .payload ([0x05, 0x00, 0x00, 0xE1] ++ codes ++ [0x00, afTrail1])
  | 2 => .payload (zeroPad ([0x07, 0x00, 0x00, 0xE0 + 2] ++ codes) 7 ++ [0x00, afTrail2])
  | 3 => .payload (zeroPad ([0x07, 0x00, 0x00, 0xE0 + 3] ++ codes) 7 ++ [0x00, afTrail3])
  | n =>
    if n ≤ 11 then .payload ([0x0F, 0x00, 0x00, afLongHdr] ++ zeroPad codes 11 ++ [0x00, afTrailLong])
    else .tooMany

/-- BuildAFPayload: map every frequency, drop the rejected ones, select the layout by how many are left (R79). -/
def buildAfPayload (fs : List Half) : AfPayload := selectAf (afCodes fs)

/-- AFMAP: one frequency to its code, a rejected one reported (R81). -/
def execAfmap (freq : Half) (s : State) : Result :=
  match encodeAf freq with
  | none => raise .errInvalidFreq s
  | some code => respond .ok [code] s

/-- AFPAYLOAD: the AF payload without group header or frame (R82). -/
def execAfpayload (freqs : List Half) (s : State) : Result :=
  match buildAfPayload freqs with
  | .empty => respond .empty [] s
  | .tooMany => raise .errAfLength s
  | .payload bytes => respond .ok bytes s

/-- ENC_AF: the AF frame, its payload passed through the group builder with MEC 0x13 (R83). -/
def execEncAf (freqs : List Half) (s : State) : Result :=
  match buildAfPayload freqs with
  | .empty => respond .empty [] s
  | .tooMany => raise .errAfLength s
  | .payload bytes => respondGroup 0x13 bytes s

end Sys2Proof.Machine
end

