-- ==== Sys2Proof/Machine/Registers.lean ====
section
/-! DEFINITION. Register access and the illegal opcode (44_registers R84-R86). -/

namespace Sys2Proof.Machine

/-- WRREG: write the used bits of one register; a reserved address changes no register (R84). -/
def execWrreg (addr : Byte) (value : Half) (s : State) : Result :=
  match s.regs.write addr value with
  | some r => respond .ok [] (s.setRegs r)
  | none => raise .errBadRegister s

/-- RDREG: read one register, big-endian; a read has no side effect (R85). -/
def execRdreg (addr : Byte) (s : State) : Result :=
  match s.regs.read addr with
  | some v => respond .ok (be16 v) s
  | none => raise .errBadRegister s

/-- Illegal opcode: one byte consumed, nothing changed, ERR_ILLEGAL_OPCODE, whatever the byte (R86). -/
def execIllegal (_op : Byte) (s : State) : Result := raise .errIllegalOpcode s

end Sys2Proof.Machine
end

