-- ==== Sys2Proof/Machine/Dispatch.lean ====
section
/-! DEFINITION. One arm per command: each calls its meaning. -/

namespace Sys2Proof.Machine

def exec (i : Instr) (s : State) : Host.Outcome State Fault Refusal :=
  match i with
  | .encPi => Sys2Proof.Machine.execEncPi s
  | .encPs text => Sys2Proof.Machine.execEncPs text s
  | .encTpta => Sys2Proof.Machine.execEncTpta s
  | .encDi => Sys2Proof.Machine.execEncDi s
  | .encMs => Sys2Proof.Machine.execEncMs s
  | .encPty => Sys2Proof.Machine.execEncPty s
  | .encRt text => Sys2Proof.Machine.execEncRt text s
  | .encClock year month day hour minute second => Sys2Proof.Machine.execEncClock year month day hour minute second s
  | .encAf freqs => Sys2Proof.Machine.execEncAf freqs s
  | .group mec data => Sys2Proof.Machine.execGroup mec data s
  | .frame data => Sys2Proof.Machine.execFrame data s
  | .crc16 data => Sys2Proof.Machine.execCrc16 data s
  | .stuff data => Sys2Proof.Machine.execStuff data s
  | .afmap freq => Sys2Proof.Machine.execAfmap freq s
  | .afpayload freqs => Sys2Proof.Machine.execAfpayload freqs s
  | .wrreg addr value => Sys2Proof.Machine.execWrreg addr value s
  | .rdreg addr => Sys2Proof.Machine.execRdreg addr s
  | .illegal op => Sys2Proof.Machine.execIllegal op s

end Sys2Proof.Machine
end

