-- ==== Sys2Proof/Machine/Fetch.lean ====
section
/-! DEFINITION. What the core does between commands: holding while the output buffer is full, handing the executing
command's record to it, and consuming command bytes into the decoder (30_encoding R46, 70_reset R100-R102). -/

namespace Sys2Proof.Machine

/-- The response-output buffer holds OUT_DEPTH bytes (R102). An empty buffer is not full, since OUT_DEPTH is at least 1. -/
def State.outFull (s : State) : Bool :=
  match s.outBuf with
  | [] => false
  | _ :: rest => Config.outDepthPred ≤ rest.length

/-- The next byte of the executing command's record goes into the response-output buffer (R13 item 3, R48). -/
def State.emitByte (s : State) (b : Byte) (rest : List Byte) : State :=
  { s with outBuf := s.outBuf ++ [b], emitting := rest }

/-- The command bytes at hand: those the decoder holds, then those in the input buffer. -/
def State.commandBytes (s : State) : List Byte := s.decoder ++ s.inBuf

/-- The command at hand is not complete: the decoder consumes what is there and waits (R46, R100, log entries 4
and 13). -/
def State.hold (s : State) : State :=
  { s with decoder := s.commandBytes, inBuf := [], position := s.position + s.inBuf.length }

/-- The state once a command has been consumed and `rest` is left unconsumed: the command position has advanced by the
bytes taken from the input buffer (R24, R47, log entry 13). -/
def State.consume (s : State) (rest : List Byte) : State :=
  { s with decoder := [], inBuf := rest, position := s.position + (s.inBuf.length - rest.length) }

/-- The next command, if it is complete, and the state that has consumed it (R46). -/
def State.fetch (s : State) : Option (Instr × State) :=
  match decode s.commandBytes with
  | .command i rest => some (i, s.consume rest)
  | _ => none

end Sys2Proof.Machine
end

