-- ==== Sys2Proof/Machine/Step.lean ====
section
/-! DEFINITION. One step of the core, and how a test places a command where the next step fetches it. -/

namespace Sys2Proof.Machine

/-- One step of the core (log entries 4 and 5). With the output buffer full it holds (R102). With a record still to hand over it
hands over one byte. Otherwise it consumes and executes the next command if that is complete (R36, R46), and if not
consumes what is there and waits (R100); with nothing there it is idle (R95). -/
def step (s : State) : Host.Outcome State Fault Refusal :=
  if s.outFull then .next s
  else
    match s.emitting with
    | b :: rest => .next (s.emitByte b rest)
    | [] =>
      match s.fetch with
      | some (i, t) => exec i t
      | none => .next s.hold

/-- The state with the command of an opcode-table word as the bytes the host has pushed, and nothing before it: no
partly received command, and no untaken response (log entry 11). -/
def State.withFetchWord (s : State) (nbits w : Nat) : State :=
  { s with decoder := [], inBuf := tableBytes nbits w, outBuf := [], emitting := [] }

end Sys2Proof.Machine
end

