-- ==== Sys2Proof/Machine/HostPort.lean ====
section
/-! DEFINITION. What the host can do to the core between two of its steps: push, take and reset (70_reset R97, R105),
and how it parses what it took (30_encoding R48). -/

namespace Sys2Proof.Machine

/-- Push one command byte; no move while the command-input buffer holds IN_DEPTH bytes (R102, R105, log entry 10). -/
def State.push (s : State) (b : Byte) : Option State :=
  if s.inBuf.length < Config.inDepth then some { s with inBuf := s.inBuf ++ [b] } else none

/-- Take the byte at the head of the response-output buffer; no move while it is empty (R105). -/
def State.take (s : State) : Option (Byte × State) :=
  match s.outBuf with
  | [] => none
  | b :: rest => some (b, { s with outBuf := rest })

/-- Assert and release the reset input (R97): whatever was received, being executed or untaken is lost (log entry 6). -/
def State.applyReset (_s : State) : State := State.reset

/-- The number four big-endian bytes spell (R9). -/
def ofBe32 (b3 b2 b1 b0 : Byte) : Nat := ((b3.toNat * 256 + b2.toNat) * 256 + b1.toNat) * 256 + b0.toNat

/-- The host's parse of the first record of a response stream: its status byte, its result and what follows; `none` while
it is not all there (R48, R98). -/
def parseRecord : List Byte → Option (Byte × List Byte × List Byte)
  | st :: b3 :: b2 :: b1 :: b0 :: body =>
    let n := ofBe32 b3 b2 b1 b0
    if body.length < n then none else some (st, body.take n, body.drop n)
  | _ => none

end Sys2Proof.Machine
end

