-- ==== Sys2Proof/Safety.lean ====
section
/-! DEFINITION. What claims are stated in: the invariant of the core, the ghost form of the byte-stuffer, the history of a
core and its host, and the sequential reading of a command stream. -/

namespace Sys2Proof.Machine

/-- The longest RESULT a command can answer (30_encoding R49). -/
def maxResult : Nat := 131084

/-- The longest command (R41). -/
def maxCommand : Nat := 65540

/-- The invariant of the core: the buffers keep within their depths (R13, R102), the decoder holds no complete command
(R26) and less than the longest one (R41), what it holds has been counted as consumed (R24), and what is left of a record
is no longer than the longest record (R48, R49). -/
structure State.Inv (s : State) : Prop where
  inBuf_le : s.inBuf.length ≤ Config.inDepth
  outBuf_le : s.outBuf.length ≤ Config.outDepth
  decoder_incomplete : isComplete s.decoder = false
  decoder_lt : s.decoder.length < maxCommand
  decoder_counted : s.decoder.length ≤ s.position
  emitting_le : s.emitting.length ≤ 5 + maxResult

/-- The byte-stuffer with every output byte marked: `true` on the bytes it inserted (41_group_frame R56). -/
def markedStuff (s : List Byte) : List (Byte × Bool) :=
  s.flatMap fun b => if isDelimiter b then [(b, false), (0xFD, true)] else [(b, false)]

/-- The used bits of the register at an address; no bit of a reserved one (10_state R15, R22). -/
def usedMask (addr : Byte) : Half :=
  match addr.toNat with
  | 0 => 0xFFFF
  | 1 => 0x00FF
  | 2 => 0x0003
  | 3 => 0x0001
  | 4 => 0x000F
  | 5 => 0x0001
  | _ => 0x0000

/-- One bit through the textbook CRC shift register: the bit joins the register's top bit, and their difference decides
whether the polynomial is applied. -/
def lfsrBit (c : Half) (bit : Bool) : Half :=
  if c.getLsbD 15 ^^ bit then (c <<< 1) ^^^ 0x1021 else c <<< 1

/-- The bits of a byte sequence, most significant bit of each byte first. -/
def bitsOf (s : List Byte) : List Bool :=
  s.flatMap fun b => [7, 6, 5, 4, 3, 2, 1, 0].map fun k => b.getLsbD k

/-- The mapper as a comparison against the table of the 204 frequencies 8750 + 10c, an off-grid frequency going to the
entry it rounds to, halves up (43_af R78). -/
def afTableLookup (f : Half) : Option Byte :=
  if f.toNat < 8760 ∨ 10790 < f.toNat then none
  else
    ((List.range' 1 204).find? fun c => 8750 + 10 * c ≤ f.toNat + 5 && f.toNat + 5 < 8750 + 10 * (c + 1)).map
      (BitVec.ofNat 8)

/-- `History pushed taken s`: a core that began at its last reset is now in state `s`, the host having pushed the bytes
`pushed` and taken the bytes `taken` since that reset, in any interleaving of the host's moves with the core's steps
(20_memory R36, 70_reset R105). -/
inductive History : List Byte → List Byte → State → Prop where
  | start : History [] [] State.reset
  | push {p t : List Byte} {s s' : State} {b : Byte} :
      History p t s → s.push b = some s' → History (p ++ [b]) t s'
  | take {p t : List Byte} {s s' : State} {b : Byte} :
      History p t s → s.take = some (b, s') → History p (t ++ [b]) s'
  | step {p t : List Byte} {s s' : State} :
      History p t s → step s = .next s' → History p t s'
  | resets {p t : List Byte} {s : State} : History p t s → History [] [] s.applyReset

/-- What one command answers and leaves in the registers when it is run alone, on a core just reset but for its
registers: the record bytes, and the register file after. -/
def runAlone (i : Instr) (r : RegFile) : List Byte × RegFile :=
  match exec i (State.reset.setRegs r) with
  | .next t => (t.emitting, t.regs)
  | _ => ([], r)

/-- What a command stream means when its commands are run alone, one after the other, the registers being all that passes
from one to the next (R13, R36, R40). -/
structure Reading where
  /-- The response records, in command order. -/
  records : List Byte
  /-- The registers after the last complete command. -/
  regs : RegFile
  /-- The bytes of a last command that is not complete. -/
  left : List Byte
deriving DecidableEq, Repr

/-- The sequential reading with room for `fuel` commands. -/
def readStream : Nat → RegFile → List Byte → Reading
  | 0, r, bs => { records := [], regs := r, left := bs }
  | fuel + 1, r, bs =>
    match decode bs with
    | .command i rest =>
      let next := readStream fuel (runAlone i r).2 rest
      { next with records := (runAlone i r).1 ++ next.records }
    | _ => { records := [], regs := r, left := bs }

/-- The sequential reading of a whole stream: a command has at least one byte, so there are no more commands than
bytes. -/
def reading (r : RegFile) (bs : List Byte) : Reading := readStream bs.length r bs

end Sys2Proof.Machine
end

