-- ==== Sys2Proof/Certificates/Slice0/Obligations.lean ====
section
/-! DEFINITION. The statements for the provers, from the numbered rules of spec/. A meaning's answer is stated as an
equation: `s.enqueue bytes` is `s` with those bytes appended to the response stream (to the bytes of it still to be handed to
the output buffer, log entry 2) and every register, both buffers, the decoder state and the command position as in `s`, so the
equation is the command's frame as well. -/

open Sys2Proof Sys2Proof.Machine

/-! ### Reset (10_state R28, 70_reset R97) -/

/-- R28: what reset leaves, from whatever state it is applied in; the first byte pushed afterwards is the next command's
first. -/
def Obligations.ResetLeavesTheResetState : Prop :=
  ∀ s : State,
    s.applyReset.regs.pi = 0 ∧ s.applyReset.regs.pty = 0 ∧ s.applyReset.regs.tpta = 0 ∧
    s.applyReset.regs.ms = 0 ∧ s.applyReset.regs.di = 0 ∧ s.applyReset.regs.mode = 0 ∧
    s.applyReset.inBuf = [] ∧ s.applyReset.outBuf = [] ∧ s.applyReset.decoder = [] ∧
    s.applyReset.position = 0 ∧
    ∀ b t, s.applyReset.push b = some t → t.commandBytes = [b]

/-- R97: a reset loses the partly received command, the untaken response bytes and the record being emitted, so the next
step only waits for a byte. That the record being emitted is state is the model's reading (log entry 2). -/
def Obligations.ResetAbandonsEverythingInFlight : Prop :=
  ∀ s : State,
    s.applyReset.responseStream = [] ∧ s.applyReset.commandBytes = [] ∧
    step s.applyReset = .next s.applyReset

/-! ### The commands, each with its answer and its frame -/

/-- R67: ENC_TPTA. -/
def Obligations.EncTptaAnswersTheTpTaFrame : Prop :=
  encode .encTpta = [0x03] ∧
  ∀ s : State,
    exec .encTpta s =
      .next (s.enqueue (record .ok (buildFrame (buildGroup 0x03 [s.regs.tpta.setWidth 8])))) ∧
    (s.regs.tpta = 2 → buildFrame (buildGroup 0x03 [s.regs.tpta.setWidth 8]) =
      [0xfe, 0x00, 0x00, 0x00, 0x04, 0x03, 0x00, 0x00, 0x02, 0xfc, 0x59, 0xff])

/-- R68: ENC_PI. -/
def Obligations.EncPiAnswersThePiFrame : Prop :=
  encode .encPi = [0x01] ∧
  ∀ s : State,
    exec .encPi s = .next (s.enqueue (record .ok (buildFrame (buildGroup 0x01 (be16 s.regs.pi))))) ∧
    (s.regs.pi = 0x1337 → buildFrame (buildGroup 0x01 (be16 s.regs.pi)) =
      [0xfe, 0x00, 0x00, 0x00, 0x05, 0x01, 0x00, 0x00, 0x13, 0x37, 0x1e, 0x49, 0xff])

/-- R69: ENC_PTY, the stored byte emitted as it is, in and out of the range 0-31. -/
def Obligations.EncPtyAnswersThePtyFrame : Prop :=
  encode .encPty = [0x07] ∧
  ∀ s : State,
    exec .encPty s = .next (s.enqueue (record .ok (buildFrame (buildGroup 0x07 [s.regs.pty])))) ∧
    (s.regs.pty = 15 → buildFrame (buildGroup 0x07 [s.regs.pty]) =
      [0xfe, 0x00, 0x00, 0x00, 0x04, 0x07, 0x00, 0x00, 0x0f, 0xe7, 0x05, 0xff])

/-- R70: ENC_MS, whose payload byte is 0 or 1. -/
def Obligations.EncMsAnswersTheMusicSpeechFrame : Prop :=
  encode .encMs = [0x05] ∧
  ∀ s : State,
    exec .encMs s =
      .next (s.enqueue (record .ok (buildFrame (buildGroup 0x05 [if s.regs.ms = 1 then 0x01 else 0x00])))) ∧
    (s.regs.ms = 1 → buildFrame (buildGroup 0x05 [if s.regs.ms = 1 then 0x01 else 0x00]) =
      [0xfe, 0x00, 0x00, 0x00, 0x04, 0x05, 0x00, 0x00, 0x01, 0xeb, 0xa3, 0xff])

/-- R71: ENC_DI, the nibble in the low four bits of the payload byte and zero above. -/
def Obligations.EncDiAnswersTheDecoderInfoFrame : Prop :=
  encode .encDi = [0x04] ∧
  ∀ s : State,
    exec .encDi s = .next (s.enqueue (record .ok (buildFrame (buildGroup 0x04 [s.regs.di.setWidth 8])))) ∧
    (s.regs.di.setWidth 8 : Byte).toNat = s.regs.di.toNat ∧
    (s.regs.di = 0 → buildFrame (buildGroup 0x04 [s.regs.di.setWidth 8]) =
      [0xfe, 0x00, 0x00, 0x00, 0x04, 0x04, 0x00, 0x00, 0x00, 0x8d, 0x36, 0xff])

/-- R72: ENC_PS, an 11-byte message whatever the text, so LEN is 0x0B. -/
def Obligations.EncPsAnswersTheEightByteTextFrame : Prop :=
  (∀ (text : List Byte) (s : State),
    encode (.encPs text) = 0x02 :: (be16 (BitVec.ofNat 16 text.length) ++ text) ∧
    exec (.encPs text) s = .next (s.enqueue (record .ok (buildFrame (buildGroup 0x02 (padTrunc text 8))))) ∧
    (buildGroup 0x02 (padTrunc text 8)).length = 0x0B) ∧
  buildFrame (buildGroup 0x02 (padTrunc [0x44, 0x45, 0x4d, 0x4f] 8)) =
    [0xfe, 0x00, 0x00, 0x00, 0x0b, 0x02, 0x00, 0x00, 0x44, 0x45, 0x4d, 0x4f, 0x20, 0x20, 0x20, 0x20, 0x91, 0x80,
      0xff]

/-- R73: ENC_RT, a 69-byte message whatever the text, so LEN is 0x45. -/
def Obligations.EncRtAnswersTheSixtyFourByteTextFrame : Prop :=
  (∀ (text : List Byte) (s : State),
    encode (.encRt text) = 0x0A :: (be16 (BitVec.ofNat 16 text.length) ++ text) ∧
    exec (.encRt text) s =
      .next (s.enqueue (record .ok (buildFrame (buildGroup 0x0A ([0x41, 0x00] ++ padTrunc text 64))))) ∧
    (buildGroup 0x0A ([0x41, 0x00] ++ padTrunc text 64)).length = 0x45) ∧
  (buildFrame (buildGroup 0x0A ([0x41, 0x00] ++ padTrunc [0x48, 0x65, 0x6c, 0x6c, 0x6f] 64))).length = 77 ∧
  (buildFrame (buildGroup 0x0A ([0x41, 0x00] ++ padTrunc [0x48, 0x65, 0x6c, 0x6c, 0x6f] 64))).take 16 =
    [0xfe, 0x00, 0x00, 0x00, 0x45, 0x0a, 0x00, 0x00, 0x41, 0x00, 0x48, 0x65, 0x6c, 0x6c, 0x6f, 0x20]

/-- R74: ENC_CLOCK, the layout CLKVAR selects, the message built directly. -/
def Obligations.EncClockAnswersTheClockFrameOfItsVariant : Prop :=
  ∀ (year : Half) (month day hour minute second : Byte) (s : State),
    encode (.encClock year month day hour minute second) =
      0x0D :: (be16 year ++ [month, day, hour, minute, second]) ∧
    exec (.encClock year month day hour minute second) s =
      .next (s.enqueue (record .ok (buildFrame
        (if s.regs.mode = 0 then [0x0D, 0x19, 0x06, day, hour, minute, second, 0x00, 0x00]
         else [0x0D, 0x19, 0x06, BitVec.ofNat 8 (year.toNat % 100), month, day, hour, minute, second,
            0x00, 0x00]))))

/-- R60: GROUP. -/
def Obligations.GroupAnswersTheMessage : Prop :=
  ∀ (mec : Half) (data : List Byte) (s : State),
    encode (.group mec data) = 0x80 :: (be16 mec ++ be16 (BitVec.ofNat 16 data.length) ++ data) ∧
    exec (.group mec data) s = .next (s.enqueue (record .ok (buildGroup mec data))) ∧
    buildGroup mec data =
      (if 0xFF < mec.toNat then [hi8 mec, lo8 mec, 0x00] else [lo8 mec, 0x00, 0x00]) ++ data

/-- R61: FRAME, of a message of any length. -/
def Obligations.FrameAnswersTheFrameOfItsMessage : Prop :=
  (∀ (data : List Byte) (s : State),
    encode (.frame data) = 0x81 :: (be16 (BitVec.ofNat 16 data.length) ++ data) ∧
    exec (.frame data) s = .next (s.enqueue (record .ok (buildFrame data)))) ∧
  buildFrame [0x03, 0x00, 0x00, 0x02] =
    [0xfe, 0x00, 0x00, 0x00, 0x04, 0x03, 0x00, 0x00, 0x02, 0xfc, 0x59, 0xff]

/-- R62: CRC16, high byte first, not stuffed; of no bytes it is 0000. -/
def Obligations.Crc16AnswersTheCrcBigEndian : Prop :=
  (∀ (data : List Byte) (s : State),
    encode (.crc16 data) = 0x82 :: (be16 (BitVec.ofNat 16 data.length) ++ data) ∧
    exec (.crc16 data) s = .next (s.enqueue (record .ok [hi8 (crc16Of data), lo8 (crc16Of data)]))) ∧
  crc16Of [] = 0x0000 ∧ crc16Of [0x00, 0x00, 0x00, 0x04, 0x03, 0x00, 0x00, 0x02] = 0xfc59

/-- R63: STUFF, without delimiters. -/
def Obligations.StuffAnswersTheStuffedBytes : Prop :=
  (∀ (data : List Byte) (s : State),
    encode (.stuff data) = 0x83 :: (be16 (BitVec.ofNat 16 data.length) ++ data) ∧
    exec (.stuff data) s = .next (s.enqueue (record .ok (byteStuff data)))) ∧
  byteStuff [] = [] ∧ byteStuff [0xfe, 0xfd, 0xff] = [0xfe, 0xfd, 0xfd, 0xff, 0xfd]

/-- R81: AFMAP, ERR_INVALID_FREQ outside 8760..10790. -/
def Obligations.AfmapAnswersTheCodeOrInvalidFreq : Prop :=
  ∀ (freq : Half) (s : State),
    encode (.afmap freq) = 0x84 :: be16 freq ∧
    exec (.afmap freq) s =
      .next (s.enqueue (
        if freq.toNat < 8760 ∨ 10790 < freq.toNat then record .errInvalidFreq []
        else record .ok [BitVec.ofNat 8 ((freq.toNat - 8745) / 10)]))

/-- R82: AFPAYLOAD, by what the selector answers. -/
def Obligations.AfpayloadAnswersThePayloadOrItsStatus : Prop :=
  ∀ (freqs : List Half) (s : State),
    encode (.afpayload freqs) = 0x85 :: BitVec.ofNat 8 freqs.length :: freqs.flatMap be16 ∧
    exec (.afpayload freqs) s =
      .next (s.enqueue (
        match buildAfPayload freqs with
        | .empty => record .empty []
        | .tooMany => record .errAfLength []
        | .payload bytes => record .ok bytes))

/-- R83: ENC_AF, the payload passed through the group builder with MEC 0x13 and framed. -/
def Obligations.EncAfAnswersTheAfFrameOrItsStatus : Prop :=
  ∀ (freqs : List Half) (s : State),
    encode (.encAf freqs) = 0x13 :: BitVec.ofNat 8 freqs.length :: freqs.flatMap be16 ∧
    exec (.encAf freqs) s =
      .next (s.enqueue (
        match buildAfPayload freqs with
        | .empty => record .empty []
        | .tooMany => record .errAfLength []
        | .payload bytes => record .ok (buildFrame (buildGroup 0x13 bytes))))

/-- R84: WRREG at every address: the one register, at its used bits; a reserved address changes nothing. -/
def Obligations.WrregWritesTheUsedBitsOfOneRegister : Prop :=
  ∀ (addr : Byte) (value : Half) (s : State),
    encode (.wrreg addr value) = 0xC0 :: addr :: be16 value ∧
    exec (.wrreg addr value) s =
      (if addr = 0x00 then .next ((s.setRegs { s.regs with pi := value }).enqueue (record .ok []))
       else if addr = 0x01 then
        .next ((s.setRegs { s.regs with pty := value.extractLsb' 0 8 }).enqueue (record .ok []))
       else if addr = 0x02 then
        .next ((s.setRegs { s.regs with tpta := value.extractLsb' 0 2 }).enqueue (record .ok []))
       else if addr = 0x03 then
        .next ((s.setRegs { s.regs with ms := value.extractLsb' 0 1 }).enqueue (record .ok []))
       else if addr = 0x04 then
        .next ((s.setRegs { s.regs with di := value.extractLsb' 0 4 }).enqueue (record .ok []))
       else if addr = 0x05 then
        .next ((s.setRegs { s.regs with mode := value.extractLsb' 0 1 }).enqueue (record .ok []))
       else .next (s.enqueue (record .errBadRegister [])))

/-- R85: RDREG at every address: the register, zero above its used bits, big-endian; nothing changes. -/
def Obligations.RdregAnswersTheRegisterZeroExtended : Prop :=
  ∀ (addr : Byte) (s : State),
    encode (.rdreg addr) = [0xC1, addr] ∧
    exec (.rdreg addr) s =
      .next (s.enqueue (
        if addr = 0x00 then record .ok (be16 s.regs.pi)
        else if addr = 0x01 then record .ok (be16 (s.regs.pty.setWidth 16))
        else if addr = 0x02 then record .ok (be16 (s.regs.tpta.setWidth 16))
        else if addr = 0x03 then record .ok (be16 (s.regs.ms.setWidth 16))
        else if addr = 0x04 then record .ok (be16 (s.regs.di.setWidth 16))
        else if addr = 0x05 then record .ok (be16 (s.regs.mode.setWidth 16))
        else record .errBadRegister []))

/-- R86: an illegal opcode changes nothing and answers ERR_ILLEGAL_OPCODE, whatever its byte. -/
def Obligations.IllegalOpcodeAnswersItsStatus : Prop :=
  ∀ (op : Byte) (s : State),
    encode (.illegal op) = [op] ∧
    exec (.illegal op) s = .next (s.enqueue [0x04, 0x00, 0x00, 0x00, 0x00])

/-! ### The register file (10_state R15, R22) -/

/-- R22: after WRREG of a value, RDREG of the same register gives the value's used bits and zero in every reserved bit;
writing reserved bits is no error; every other register reads as before. -/
def Obligations.ReservedBitsAreDroppedAndReadAsZero : Prop :=
  ∀ (addr : Byte) (value : Half) (s : State), addr.toNat < 6 →
    ∃ t, exec (.wrreg addr value) s = .next (t.enqueue (record .ok [])) ∧
      exec (.rdreg addr) t = .next (t.enqueue (record .ok (be16 (value &&& usedMask addr)))) ∧
      ∀ other, other ≠ addr → t.regs.read other = s.regs.read other

/-- R15 and R39: a step changes a register only by executing a WRREG to one of the six addresses. -/
def Obligations.OnlyWrregChangesARegister : Prop :=
  ∀ s t : State, step s = .next t → t.regs ≠ s.regs →
    ∃ addr value rest, decode s.commandBytes = .command (.wrreg addr value) rest ∧ addr.toNat < 6

/-! ### The codec's shared functions -/

/-- R53: the message header is always three bytes, the data follows it whole, and the two-byte MEC 0x0100 and the one-byte MEC
0x0001 have the same header. -/
def Obligations.MessageHeaderIsAlwaysThreeBytes : Prop :=
  (∀ (mec : Half) (data : List Byte),
    buildGroup mec data =
      (if mec.toNat > 0xFF then [hi8 mec, lo8 mec, 0x00] ++ data else [lo8 mec, 0x00, 0x00] ++ data) ∧
    (buildGroup mec data).length = 3 + data.length ∧
    (buildGroup mec data).drop 3 = data) ∧
  (∀ data, buildGroup 0x00FF data = [0xFF, 0x00, 0x00] ++ data) ∧
  (∀ data, buildGroup 0x0100 data = [0x01, 0x00, 0x00] ++ data) ∧
  ∀ data, buildGroup 0x0100 data = buildGroup 0x0001 data

/-- The CRC register's eight rounds a byte (R54) compute what the bit-serial shift register computes over the message's
bits, most significant first. -/
def Obligations.CrcEqualsTheBitSerialRegister : Prop :=
  ∀ s : List Byte, crc16Of s = (bitsOf s).foldl lfsrBit 0xFFFF ^^^ 0xFFFF

/-- Running the CRC register on over a message and its own CRC leaves the same value for every message (from R54, R57). -/
def Obligations.CrcOverItsOwnFrameIsConstant : Prop :=
  ∀ m : List Byte, crcRun 0xFFFF (frameBody m) = 0x1D0F

/-- R55: the stuffer byte by byte, and the length of its output. -/
def Obligations.ByteStuffMarksEveryDelimiter : Prop :=
  byteStuff [] = [] ∧
  (∀ (b : Byte) (s : List Byte),
    byteStuff (b :: s) = b :: ((if b = 0xFE ∨ b = 0xFF then [0xFD] else []) ++ byteStuff s)) ∧
  ∀ s : List Byte, (byteStuff s).length = s.length + s.countP (fun b => b == 0xFE || b == 0xFF)

/-- R56: (a) with each output byte marked as inserted or copied, the copied ones are the input, an inserted byte is a 0xFD,
a 0xFE or 0xFF is a copied byte followed by an inserted one, and a byte is inserted exactly where one of the two stands before
it; (b) the stuffer is not idempotent; (c) the delimiter values occur in the output as in the input. -/
def Obligations.StuffedOutputMarksExactlyTheInsertedBytes : Prop :=
  (∀ s : List Byte,
    (markedStuff s).map Prod.fst = byteStuff s ∧
    ((markedStuff s).filter (fun p => !p.2)).map Prod.fst = s ∧
    (∀ b, (b, true) ∈ markedStuff s → b = 0xFD) ∧
    (∀ k b m, (markedStuff s)[k]? = some (b, m) → isDelimiter b = true →
      m = false ∧ (markedStuff s)[k + 1]? = some (0xFD, true)) ∧
    (∀ k b m, (markedStuff s)[k + 1]? = some (b, m) →
      (m = true ↔ ∃ d, (markedStuff s)[k]? = some d ∧ isDelimiter d.1 = true)) ∧
    (∀ b m, (markedStuff s)[0]? = some (b, m) → m = false) ∧
    (byteStuff s).filter isDelimiter = s.filter isDelimiter) ∧
  byteStuff [0xFE] = [0xFE, 0xFD] ∧ byteStuff [0xFE, 0xFD] = [0xFE, 0xFD, 0xFD]

/-- R57: the frame of every message: the start delimiter, the three zero bytes of the header unstuffed, then the length byte,
the message and the CRC stuffed, then the end delimiter; and the frame of the empty message. -/
def Obligations.FrameHasTheWireFormat : Prop :=
  (∀ m : List Byte,
    let len : Byte := BitVec.ofNat 8 (m.length % 256)
    let crc := crc16Of ([0x00, 0x00, 0x00, len] ++ m)
    buildFrame m = [0xFE, 0x00, 0x00, 0x00] ++ byteStuff ([len] ++ m ++ [hi8 crc, lo8 crc]) ++ [0xFF]) ∧
  buildFrame [] = [0xFE, 0x00, 0x00, 0x00, 0x00] ++ byteStuff (be16 (crc16Of [0, 0, 0, 0])) ++ [0xFF]

/-- R59: the length of a frame. -/
def Obligations.FrameLengthFormula : Prop :=
  ∀ m : List Byte,
    let crc := crc16Of ([0x00, 0x00, 0x00, BitVec.ofNat 8 (m.length % 256)] ++ m)
    let k := m.countP (fun b => b == 0xFE || b == 0xFF)
    let c := [hi8 crc, lo8 crc].countP (fun b => b == 0xFE || b == 0xFF)
    let h := if m.length % 256 = 0xFE ∨ m.length % 256 = 0xFF then 1 else 0
    (buildFrame m).length = 1 + 4 + h + m.length + k + 2 + c + 1

/-- R49: no result of a command a stream can hold is longer than 131 084 bytes, and STUFF of 65 535 delimiter bytes gives
exactly 131 070. -/
def Obligations.ResultsFitTheLengthField : Prop :=
  (∀ (i : Instr) (s : State), i.wellFormed = true →
    ∃ (t : State) (st : Status) (result : List Byte), exec i s = .next t ∧ t.responseStream = s.responseStream ++ record st result ∧
      result.length ≤ 131084 ∧ result.length < 2 ^ 32) ∧
  ∀ (data : List Byte) (s : State), data.length = 65535 → (∀ b ∈ data, b = 0xFE ∨ b = 0xFF) →
    ∃ result, exec (.stuff data) s = .next (s.enqueue (record .ok result)) ∧ result.length = 131070

/-- R65: the text former gives exactly the field's width for every text: the text's bytes, then spaces. -/
def Obligations.PadTruncGivesExactlyItsWidth : Prop :=
  ∀ (s : List Byte) (w : Nat),
    (padTrunc s w).length = w ∧
    ∀ k, k < w → (padTrunc s w)[k]? = some (s.getD k 0x20)

/-- R76: the mapper rejects exactly the frequencies outside 87.6-107.9 MHz and gives every other one its code, from 1 to
204. -/
def Obligations.MapperRejectsExactlyOutsideItsBand : Prop :=
  ∀ f : Half,
    (encodeAf f = none ↔ f.toNat < 8760 ∨ 10790 < f.toNat) ∧
    (8760 ≤ f.toNat → f.toNat ≤ 10790 →
      ∃ c, encodeAf f = some c ∧ c.toNat = (f.toNat - 8745) / 10 ∧ 1 ≤ c.toNat ∧ c.toNat ≤ 204)

/-- R77: on the 0.1 MHz grid the mapper is exact; off it, it rounds to the nearest code, halves up. -/
def Obligations.MapperIsExactOnGridAndRoundsHalvesUp : Prop :=
  (∀ c : Nat, 1 ≤ c → c ≤ 204 → encodeAf (BitVec.ofNat 16 (8750 + 10 * c)) = some (BitVec.ofNat 8 c)) ∧
  (∀ f : Half, 8760 ≤ f.toNat → f.toNat ≤ 10790 →
    encodeAf f =
      some (BitVec.ofNat 8 ((f.toNat - 8750) / 10 + if 5 ≤ (f.toNat - 8750) % 10 then 1 else 0))) ∧
  encodeAf 8765 = some 2 ∧ encodeAf 8775 = some 3

/-- R78: the valid codes are exactly 1..204, and the mapper is the comparison against the table of their frequencies. -/
def Obligations.MapperEqualsTheTableLookup : Prop :=
  (∀ c : Byte, (∃ f, encodeAf f = some c) ↔ 1 ≤ c.toNat ∧ c.toNat ≤ 204) ∧
  ∀ f : Half, encodeAf f = afTableLookup f

/-- R79: the selector's layouts, by the number n of valid frequencies, whose codes it keeps in input order, duplicates
included. -/
def Obligations.SelectorLayoutsByListLength : Prop :=
  ∀ fs : List Half,
    let codes := fs.filterMap encodeAf
    (codes.length = 0 → buildAfPayload fs = .empty) ∧
    (∀ c, codes = [c] → buildAfPayload fs = .payload [0x05, 0x00, 0x00, 0xE1, c, 0x00, 0x60]) ∧
    (∀ c d, codes = [c, d] →
      buildAfPayload fs = .payload [0x07, 0x00, 0x00, 0xE2, c, d, 0x00, 0x00, 0xD3]) ∧
    (∀ c d e, codes = [c, d, e] →
      buildAfPayload fs = .payload [0x07, 0x00, 0x00, 0xE3, c, d, e, 0x00, 0xEE]) ∧
    (4 ≤ codes.length → codes.length ≤ 11 →
      buildAfPayload fs = .payload ([0x0F, 0x00, 0x00, 0xEB] ++ codes ++
        List.replicate (11 - codes.length) 0x00 ++ [0x00, 0xAC])) ∧
    (11 < codes.length → buildAfPayload fs = .tooMany)

/-- R80: payload lengths, and no payload byte is a delimiter value. -/
def Obligations.AfPayloadLengthsAndBytes : Prop :=
  ∀ (fs : List Half) (bytes : List Byte), buildAfPayload fs = .payload bytes →
    bytes.length =
      (if (fs.filterMap encodeAf).length = 1 then 7
       else if (fs.filterMap encodeAf).length ≤ 3 then 9 else 17) ∧
    ∀ b ∈ bytes, b ≠ 0xFE ∧ b ≠ 0xFF

/-! ### Encoding (30_encoding) -/

/-- Decoding the encoding of a well-formed command gives it back, with the bytes that follow it untouched. -/
def Obligations.DecodeOfEncodeIsTheCommand : Prop :=
  ∀ (i : Instr) (rest : List Byte), i.wellFormed = true → decode (encode i ++ rest) = .command i rest

/-- Every command the decoder reads is well-formed, and the bytes it consumed are its encoding: a command has one
spelling. -/
def Obligations.EncodeOfDecodeIsTheBytes : Prop :=
  ∀ (bs : List Byte) (i : Instr) (rest : List Byte), decode bs = .command i rest →
    i.wellFormed = true ∧ encode i ++ rest = bs

/-- R46: CmdLength is determined by the first five bytes, and known once they are there. -/
def Obligations.LengthIsKnownFromFiveBytes : Prop :=
  ∀ bs : List Byte,
    (∀ n, cmdLength (bs.take 5) = some n → cmdLength bs = some n) ∧
    (cmdLength bs = cmdLength (bs.take 5)) ∧
    (5 ≤ bs.length → ∃ n, cmdLength bs = some n)

/-- R41: a command is 1 to 65 540 bytes long, and the decoder consumes exactly CmdLength bytes. -/
def Obligations.CommandsAreOneTo65540Bytes : Prop :=
  (∀ (bs : List Byte) (n : Nat), cmdLength bs = some n → 1 ≤ n ∧ n ≤ 65540) ∧
  ∀ (bs : List Byte) (i : Instr) (rest : List Byte), decode bs = .command i rest →
    ∃ n, cmdLength bs = some n ∧ bs.length = n + rest.length

/-- R45: the listed bytes, and no others, are illegal opcodes: one byte long, whatever follows, answering
ERR_ILLEGAL_OPCODE with no result. -/
def Obligations.IllegalOpcodesAreExactlyTheListed : Prop :=
  (∀ op : Byte, isIllegalOpcode op = true ↔ ∀ rest, decode (op :: rest) = .command (.illegal op) rest) ∧
  (∀ (op other : Byte) (args rest : List Byte),
    decode (op :: args) = .command (.illegal other) rest → isIllegalOpcode op = true ∧ other = op ∧ rest = args) ∧
  ∀ (op : Byte) (s : State), exec (.illegal op) s = .next (s.enqueue (record .errIllegalOpcode []))

/-- A word of each format, written out from the encodings of R42 and R44, decodes to the command it stands for. -/
def Obligations.WordsOfEveryFormatDecode : Prop :=
  decode [0x01] = .command .encPi [] ∧
  decode [0x02, 0x00, 0x04, 0x44, 0x45, 0x4d, 0x4f] = .command (.encPs [0x44, 0x45, 0x4d, 0x4f]) [] ∧
  decode [0x80, 0x0d, 0x19, 0x00, 0x02, 0x01, 0x02, 0x03] = .command (.group 0x0d19 [0x01, 0x02]) [0x03] ∧
  decode [0x0d, 0x07, 0xea, 0x0b, 0x0c, 0x0d, 0x22, 0x38] = .command (.encClock 2026 11 12 13 34 56) [] ∧
  decode [0x84, 0x24, 0x18] = .command (.afmap 9240) [] ∧
  decode [0x85, 0x02, 0x22, 0x38, 0x2a, 0x26] = .command (.afpayload [8760, 10790]) [] ∧
  decode [0xc0, 0x01, 0x12, 0x34] = .command (.wrreg 1 0x1234) [] ∧
  decode [0xc1, 0xff] = .command (.rdreg 0xff) [] ∧
  decode [0x00, 0x03] = .command (.illegal 0x00) [0x03]

/-! ### Every command -/

/-- R48: every command, legal or illegal, answers a next state in which exactly one record stands after the response stream
as it was, its result empty unless its status is OK; and the frame of all commands: the input buffer, the output buffer, the
decoder state and the command position are as before, and so is every register unless the command is a WRREG that answers
OK. -/
def Obligations.EveryCommandAnswersOneRecordAndItsFrame : Prop :=
  ∀ (i : Instr) (s : State), ∃ (t : State) (st : Status) (result : List Byte),
    exec i s = .next t ∧
    t.responseStream = s.responseStream ++ ([st.code] ++ be32 result.length ++ result) ∧
    (st ≠ .ok → result = []) ∧
    t.inBuf = s.inBuf ∧ t.outBuf = s.outBuf ∧ t.decoder = s.decoder ∧ t.position = s.position ∧
    (t.regs = s.regs ∨ st = .ok ∧ ∃ addr value, i = .wrreg addr value)

/-- R87: which status a command answers, and when. -/
def Obligations.StatusesFollowTheStatusTable : Prop :=
  (∀ (i : Instr) (s : State), ∃ (t : State) (st : Status) (result : List Byte),
    exec i s = .next t ∧ t.responseStream = s.responseStream ++ record st result ∧ (st ≠ .ok → result = []) ∧
    (st = .empty ↔ ∃ fs, (i = .encAf fs ∨ i = .afpayload fs) ∧ (fs.filterMap encodeAf).length = 0) ∧
    (st = .errAfLength ↔ ∃ fs, (i = .encAf fs ∨ i = .afpayload fs) ∧ 11 < (fs.filterMap encodeAf).length) ∧
    (st = .errInvalidFreq ↔ ∃ f, i = .afmap f ∧ (f.toNat < 8760 ∨ 10790 < f.toNat)) ∧
    (st = .errIllegalOpcode ↔ ∃ op, i = .illegal op) ∧
    (st = .errBadRegister ↔ ∃ addr, (i = .rdreg addr ∨ ∃ v, i = .wrreg addr v) ∧ 6 ≤ addr.toNat)) ∧
  Status.code .ok = 0x00 ∧ Status.code .empty = 0x01 ∧ Status.code .errAfLength = 0x02 ∧
  Status.code .errInvalidFreq = 0x03 ∧ Status.code .errIllegalOpcode = 0x04 ∧ Status.code .errBadRegister = 0x05

/-- R88: the twelve commands that never raise an error answer OK on every operand and in every state, and leave every
register as it was. -/
def Obligations.TwelveCommandsNeverRaiseAnError : Prop :=
  ∀ (s : State) (data : List Byte) (mec year : Half) (month day hour minute second : Byte) (i : Instr),
    i ∈ [.group mec data, .frame data, .crc16 data, .stuff data, .encTpta, .encPi, .encPty, .encMs, .encDi,
        .encPs data, .encRt data, .encClock year month day hour minute second] →
      ∃ result, exec i s = .next (s.enqueue (record .ok result))

/-- Equal registers and an equal command give equal answers and equal registers, whatever else the two states hold (R40). -/
def Obligations.AnswersDependOnRegistersAndOperandsOnly : Prop :=
  ∀ (i : Instr) (s s' : State), s.regs = s'.regs →
    ∃ bytes r, exec i s = .next ((s.setRegs r).enqueue bytes) ∧ exec i s' = .next ((s'.setRegs r).enqueue bytes)

/-! ### The step -/

/-- When the output buffer has room, no record is being handed over and the bytes at hand decode to a command, the step is
that command's execution, in the state that has consumed its bytes and advanced the command position. -/
def Obligations.StepRunsTheDecodedCommand : Prop :=
  ∀ (s : State) (i : Instr) (rest : List Byte),
    s.outFull = false → s.emitting = [] → decode (s.decoder ++ s.inBuf) = .command i rest →
      step s = exec i
        { s with decoder := [], inBuf := rest, position := s.position + (s.inBuf.length - rest.length) }

/-- R47: a step that executes a command advances the command position by exactly CmdLength, counted from where the command
began. -/
def Obligations.PositionAdvancesByCommandLength : Prop :=
  ∀ (s t : State) (i : Instr) (rest : List Byte),
    s.Inv → s.outFull = false → s.emitting = [] → decode s.commandBytes = .command i rest → step s = .next t →
      ∃ n, cmdLength s.commandBytes = some n ∧ t.position = (s.position - s.decoder.length) + n ∧ t.inBuf = rest

/-- R100: with an incomplete command the core consumes what is there, answers nothing, changes no register and keeps every
byte of the command. -/
def Obligations.IncompleteCommandHoldsTheCore : Prop :=
  ∀ s : State, s.outFull = false → s.emitting = [] → isComplete s.commandBytes = false →
    ∃ t, step s = .next t ∧ t.commandBytes = s.commandBytes ∧ t.inBuf = [] ∧
      t.position = s.position + s.inBuf.length ∧ t.responseStream = s.responseStream ∧
      t.outBuf = s.outBuf ∧ t.regs = s.regs

/-- R102: a full output buffer holds the core until the host takes a byte, and a full input buffer takes no push. That a
held core does nothing at all is the model's reading (log entry 4). -/
def Obligations.FullBuffersHoldCoreAndHost : Prop :=
  (∀ s : State, Config.outDepth ≤ s.outBuf.length → step s = .next s) ∧
  (∀ (s : State) (b : Byte), Config.inDepth ≤ s.inBuf.length ↔ s.push b = none)

/-- The bytes of a record go into the output buffer one a step, in order, and nothing else changes while they do. The record
being emitted, and one byte a step, are the model's reading (log entries 2 and 5). -/
def Obligations.RecordBytesAreHandedOverInOrder : Prop :=
  ∀ (s : State) (b : Byte) (rest : List Byte),
    s.emitting = b :: rest → s.outBuf.length < Config.outDepth →
      step s = .next { s with outBuf := s.outBuf ++ [b], emitting := rest }

/-- From every state, while the output buffer has room for the rest of the record, that many steps hand all of it over and do
nothing else (log entries 2 and 5). -/
def Obligations.EmissionDrainsWhenThereIsRoom : Prop :=
  ∀ s : State, s.outBuf.length + s.emitting.length ≤ Config.outDepth →
    Host.Core.run Sys2Proof.core s.emitting.length s =
      .next ({ s with outBuf := s.outBuf ++ s.emitting, emitting := [] } : State)

/-- The core never faults and no command is refused: every step of every state answers a next state. -/
def Obligations.EveryStepAnswersANextState : Prop :=
  ∀ s : State, ∃ t, step s = .next t

/-! ### The host -/

/-- R48: a response stream parses as its records: the parse of a record and whatever follows gives the record's status, its
result and what follows. -/
def Obligations.RecordsAreSelfDelimiting : Prop :=
  ∀ (st : Status) (result rest : List Byte), result.length < 2 ^ 32 →
    parseRecord (record st result ++ rest) = some (st.code, result, rest)

/-! ### Invariants and whole histories -/

/-- The invariant holds at reset. -/
def Obligations.InvariantHoldsAtReset : Prop := State.reset.Inv

/-- Every step keeps the invariant, from every state that has it. -/
def Obligations.EveryStepKeepsTheInvariant : Prop :=
  ∀ s t : State, s.Inv → step s = .next t → t.Inv

/-- The host's three moves keep the invariant. -/
def Obligations.HostMovesKeepTheInvariant : Prop :=
  ∀ s : State, s.Inv →
    (∀ b t, s.push b = some t → t.Inv) ∧ (∀ b t, s.take = some (b, t) → t.Inv) ∧ s.applyReset.Inv

/-- R24: in every history the command position counts the command-stream bytes consumed since the last reset: those pushed
less those still in the input buffer. -/
def Obligations.PositionCountsConsumedBytes : Prop :=
  ∀ (pushed taken : List Byte) (s : State), History pushed taken s → s.position + s.inBuf.length = pushed.length

/-- Whatever the depths of the two buffers and however the host's moves interleave with the core's steps, what the host has
taken, then what is in the output buffer and still to be handed over, then what the commands not yet executed will answer, is
the sequential reading of all the host pushed since the last reset; and so are the registers and the incomplete command at the
end (R36, R40, R102). -/
def Obligations.EveryHistoryIsTheSequentialReading : Prop :=
  ∀ (pushed taken : List Byte) (s : State), History pushed taken s →
    taken ++ s.responseStream ++ (reading s.regs s.commandBytes).records =
        (reading RegFile.reset pushed).records ∧
    (reading s.regs s.commandBytes).regs = (reading RegFile.reset pushed).regs ∧
    (reading s.regs s.commandBytes).left = (reading RegFile.reset pushed).left

/-- When the core is idle, having consumed every byte and handed over every record, the host has taken, or finds in the output
buffer, exactly the records of the commands it pushed; the registers are those commands' last writes; and the decoder holds
exactly the bytes of the unfinished command (R36, R48, R100). -/
def Obligations.IdleCoreHasAnsweredEveryCommand : Prop :=
  ∀ (pushed taken : List Byte) (s : State), History pushed taken s → s.emitting = [] → s.inBuf = [] →
    taken ++ s.outBuf = (reading RegFile.reset pushed).records ∧
    s.regs = (reading RegFile.reset pushed).regs ∧
    s.decoder = (reading RegFile.reset pushed).left
end

