-- ==== Sys2Proof/Laws/Decode.lean ====
section
/-! SUPPORT. The small lemmas of the byte-order helpers, the opcode map and the decoder. -/

namespace Sys2Proof

/-! ### Byte order -/

@[simp] theorem be16_length (v : Half) : (be16 v).length = 2 := rfl

@[simp] theorem join16_hi8_lo8 (v : Half) : join16 (hi8 v) (lo8 v) = v := by
  apply BitVec.eq_of_getLsbD_eq
  intro i hi
  simp only [join16, hi8, lo8, BitVec.getLsbD_or, BitVec.getLsbD_shiftLeft, BitVec.getLsbD_setWidth,
    BitVec.getLsbD_extractLsb']
  by_cases h : i < 8
  · simp [h, hi]
  · have h8 : i - 8 < 8 := by omega
    have h16 : i - 8 < 16 := by omega
    have : 8 + (i - 8) = i := by omega
    simp [h, hi, h8, h16, this]

@[simp] theorem hi8_join16 (hi lo : Byte) : hi8 (join16 hi lo) = hi := by
  apply BitVec.eq_of_getLsbD_eq
  intro i h
  have h16 : 8 + i < 16 := by omega
  simp [join16, hi8, h, h16]

@[simp] theorem lo8_join16 (hi lo : Byte) : lo8 (join16 hi lo) = lo := by
  apply BitVec.eq_of_getLsbD_eq
  intro i h
  have h16 : i < 16 := by omega
  simp [join16, lo8, h, h16]

@[simp] theorem be16_join16 (hi lo : Byte) : be16 (join16 hi lo) = [hi, lo] := by simp [be16]

@[simp] theorem flatMap_be16_length (vs : List Half) : (vs.flatMap be16).length = 2 * vs.length := by
  induction vs with
  | nil => rfl
  | cons v vs ih => simp [ih]; omega

@[simp] theorem joinEntries_flatMap_be16 (vs : List Half) : joinEntries (vs.flatMap be16) = vs := by
  induction vs with
  | nil => rfl
  | cons v vs ih => simpa [be16, joinEntries] using ih

/-- An even number of bytes is the concatenation of its entries, half as many. -/
theorem flatMap_joinEntries : ∀ (n : Nat) (bs : List Byte), bs.length = 2 * n →
    (joinEntries bs).flatMap be16 = bs ∧ (joinEntries bs).length = n
  | 0, [], _ => by simp [joinEntries]
  | n + 1, [], h => by simp at h
  | n + 1, [_], h => by simp at h; omega
  | n + 1, hi :: lo :: rest, h => by
    have := flatMap_joinEntries n rest (by simp at h; omega)
    simp [joinEntries, this.1, this.2]

/-! ### The opcode map -/

@[simp] theorem Opcode.ofByte?_code (o : Opcode) : Opcode.ofByte? o.code = some o := by
  cases o <;> rfl

theorem Opcode.code_of_ofByte? {b : Byte} {o : Opcode} (h : Opcode.ofByte? b = some o) : o.code = b := by
  have := List.find?_some h
  simpa using this

@[simp] theorem formatOf_code (o : Opcode) : formatOf o.code = o.format := by simp [formatOf]

/-- The bytes the opcode map leaves out are R45's list. -/
theorem Opcode.ofByte?_eq_none_iff : ∀ b : Byte, Opcode.ofByte? b = none ↔ isIllegalOpcode b = true := by
  decide +kernel

theorem Opcode.ofByte?_of_illegal {b : Byte} (h : isIllegalOpcode b = true) : Opcode.ofByte? b = none :=
  (Opcode.ofByte?_eq_none_iff b).2 h

/-! ### Length -/

@[simp] theorem encode_ne_nil (i : Instr) : encode i ≠ [] := by cases i <;> simp [encode, encodeB, encodeL]

/-- A count field of a list that fits it reads back as the list's length. -/
theorem byteCount_toNat {data : List Byte} (h : fitsByteCount data = true) :
    (BitVec.ofNat 16 data.length).toNat = data.length := by
  simp [fitsByteCount] at h
  simp
  omega

theorem entryCount_toNat {freqs : List Half} (h : fitsEntryCount freqs = true) :
    (BitVec.ofNat 8 freqs.length).toNat = freqs.length := by
  simp [fitsEntryCount] at h
  simp
  omega

/-- A format B command whose length is known has its L field (R46). -/
theorem cmdLength_b {o : Opcode} {args : List Byte} {n : Nat} (ho : o.format = .b)
    (h : cmdLength (o.code :: args) = some n) :
    ∃ l1 l0 data, args = l1 :: l0 :: data ∧ n = 3 + (join16 l1 l0).toNat := by
  simp only [cmdLength, formatOf_code, ho] at h
  split at h
  · next l1 l0 data => exact ⟨l1, l0, data, rfl, by simpa using h.symm⟩
  · cases h

/-- A format G command whose length is known has its MEC and L fields (R46). -/
theorem cmdLength_g {o : Opcode} {args : List Byte} {n : Nat} (ho : o.format = .g)
    (h : cmdLength (o.code :: args) = some n) :
    ∃ m1 m0 l1 l0 data, args = m1 :: m0 :: l1 :: l0 :: data ∧ n = 5 + (join16 l1 l0).toNat := by
  simp only [cmdLength, formatOf_code, ho] at h
  split at h
  · next m1 m0 l1 l0 data => exact ⟨m1, m0, l1, l0, data, rfl, by simpa using h.symm⟩
  · cases h

/-- A format L command whose length is known has its N field (R46). -/
theorem cmdLength_l {o : Opcode} {args : List Byte} {n : Nat} (ho : o.format = .l)
    (h : cmdLength (o.code :: args) = some n) :
    ∃ c entries, args = c :: entries ∧ n = 2 + 2 * c.toNat := by
  simp only [cmdLength, formatOf_code, ho] at h
  split at h
  · next c entries => exact ⟨c, entries, rfl, by simpa using h.symm⟩
  · cases h

/-! ### The decoder -/

/-- Everything the decoder can answer for a command: the length is known, the bytes are there, and it consumes exactly
them. -/
theorem decode_command {bs rest : List Byte} {i : Instr} (h : decode bs = .command i rest) :
    ∃ op args n, bs = op :: args ∧ cmdLength bs = some n ∧ n ≤ args.length + 1 ∧
      i = decodeFields op (args.take (n - 1)) ∧ rest = args.drop (n - 1) := by
  match bs with
  | [] => simp [decode] at h
  | op :: args =>
    simp only [decode] at h
    split at h
    · cases h
    · next n hn =>
      split at h
      · cases h
      · cases h
        exact ⟨op, args, n, rfl, hn, by omega, rfl, rfl⟩

/-- A sequence whose length is known and reached decodes. -/
theorem decode_of_length {op : Byte} {args : List Byte} {n : Nat} (hn : cmdLength (op :: args) = some n)
    (hl : n ≤ args.length + 1) :
    decode (op :: args) = .command (decodeFields op (args.take (n - 1))) (args.drop (n - 1)) := by
  simp [decode, hn, show ¬ args.length + 1 < n by omega]

/-- A sequence decodes to a command exactly when it is complete. -/
theorem isComplete_iff {bs : List Byte} :
    isComplete bs = true ↔ ∃ i rest, decode bs = .command i rest := by
  constructor
  · intro h
    match bs with
    | [] => simp [isComplete, cmdLength] at h
    | op :: args =>
      simp only [isComplete] at h
      split at h
      · next n hn => exact ⟨_, _, decode_of_length hn (by simpa using h)⟩
      · cases h
  · rintro ⟨i, rest, h⟩
    obtain ⟨op, args, n, rfl, hn, hl, -, -⟩ := decode_command h
    simp [isComplete, hn, hl]

end Sys2Proof
end

