-- ==== Sys2Proof/Laws/Codec.lean ====
section
/-! SUPPORT. The small lemmas of the codec's shared functions. -/

namespace Sys2Proof.Machine

/-! ### ByteStuff -/

theorem isDelimiter_iff (b : Byte) : isDelimiter b = true ↔ b = 0xFE ∨ b = 0xFF := by simp [isDelimiter]

@[simp] theorem isDelimiter_zero : isDelimiter 0#8 = false := rfl

@[simp] theorem byteStuff_nil : byteStuff [] = [] := rfl

theorem byteStuff_cons (b : Byte) (s : List Byte) :
    byteStuff (b :: s) = (if isDelimiter b then [b, 0xFD] else [b]) ++ byteStuff s := by
  simp [byteStuff]

@[simp] theorem byteStuff_append (s t : List Byte) : byteStuff (s ++ t) = byteStuff s ++ byteStuff t := by
  simp [byteStuff]

/-- A byte that is no delimiter is copied. -/
theorem byteStuff_cons_plain {b : Byte} (h : isDelimiter b = false) (s : List Byte) :
    byteStuff (b :: s) = b :: byteStuff s := by simp [byteStuff_cons, h]

/-- A delimiter is copied and marked. -/
theorem byteStuff_cons_delimiter {b : Byte} (h : isDelimiter b = true) (s : List Byte) :
    byteStuff (b :: s) = b :: 0xFD :: byteStuff s := by simp [byteStuff_cons, h]

/-! ### The CRC register -/

@[simp] theorem crcRun_nil (c : Half) : crcRun c [] = c := rfl

@[simp] theorem crcRun_cons (c : Half) (b : Byte) (s : List Byte) :
    crcRun c (b :: s) = crcRun (crcByte c b) s := by
  have h : BitVec.ofNat 16 (crcByte c b).toNat = crcByte c b := by simp
  rw [crcRun]
  split
  · rename_i hn; rw [← h, hn]; rfl
  · rename_i hn; rw [← h, hn]

theorem crcRun_eq_foldl (c : Half) (s : List Byte) : crcRun c s = s.foldl crcByte c := by
  induction s generalizing c with
  | nil => rfl
  | cons b s ih => simp [ih]

@[simp] theorem crcRun_append (c : Half) (s t : List Byte) : crcRun c (s ++ t) = crcRun (crcRun c s) t := by
  simp [crcRun_eq_foldl]

/-! ### Lengths -/

@[simp] theorem lengthHeader_length (m : List Byte) : (lengthHeader m).length = 4 := rfl

@[simp] theorem framePayload_length (m : List Byte) : (framePayload m).length = 4 + m.length := by
  simp [framePayload]

@[simp] theorem frameBody_length (m : List Byte) : (frameBody m).length = 6 + m.length := by
  simp [frameBody]; omega

@[simp] theorem zeroPad_length (s : List Byte) (w : Nat) : (zeroPad s w).length = max s.length w := by
  simp [zeroPad]; omega

end Sys2Proof.Machine
end

