-- ==== Sys2Proof/Laws/State.lean ====
section
/-! SUPPORT. One lemma per field per state update, so that no later proof unfolds a record update. -/

namespace Sys2Proof.Machine

/-! ### State.enqueue -/

@[simp] theorem State.enqueue_regs (s : State) (bytes : List Byte) : (s.enqueue bytes).regs = s.regs := rfl
@[simp] theorem State.enqueue_inBuf (s : State) (bytes : List Byte) : (s.enqueue bytes).inBuf = s.inBuf := rfl
@[simp] theorem State.enqueue_outBuf (s : State) (bytes : List Byte) : (s.enqueue bytes).outBuf = s.outBuf := rfl
@[simp] theorem State.enqueue_decoder (s : State) (bytes : List Byte) : (s.enqueue bytes).decoder = s.decoder := rfl
@[simp] theorem State.enqueue_emitting (s : State) (bytes : List Byte) : (s.enqueue bytes).emitting = s.emitting ++ bytes :=
    rfl
@[simp] theorem State.enqueue_position (s : State) (bytes : List Byte) : (s.enqueue bytes).position = s.position :=
    rfl

/-! ### State.setRegs -/

@[simp] theorem State.setRegs_regs (s : State) (r : RegFile) : (s.setRegs r).regs = r := rfl
@[simp] theorem State.setRegs_inBuf (s : State) (r : RegFile) : (s.setRegs r).inBuf = s.inBuf := rfl
@[simp] theorem State.setRegs_outBuf (s : State) (r : RegFile) : (s.setRegs r).outBuf = s.outBuf := rfl
@[simp] theorem State.setRegs_decoder (s : State) (r : RegFile) : (s.setRegs r).decoder = s.decoder := rfl
@[simp] theorem State.setRegs_emitting (s : State) (r : RegFile) : (s.setRegs r).emitting = s.emitting := rfl
@[simp] theorem State.setRegs_position (s : State) (r : RegFile) : (s.setRegs r).position = s.position := rfl

/-! ### State.emitByte -/

@[simp] theorem State.emitByte_regs (s : State) (b : Byte) (rest : List Byte) : (s.emitByte b rest).regs = s.regs :=
    rfl
@[simp] theorem State.emitByte_inBuf (s : State) (b : Byte) (rest : List Byte) : (s.emitByte b rest).inBuf = s.inBuf :=
    rfl
@[simp] theorem State.emitByte_outBuf (s : State) (b : Byte) (rest : List Byte) : (s.emitByte b rest).outBuf = s.outBuf ++ [b] :=
    rfl
@[simp] theorem State.emitByte_decoder (s : State) (b : Byte) (rest : List Byte) : (s.emitByte b rest).decoder = s.decoder :=
    rfl
@[simp] theorem State.emitByte_emitting (s : State) (b : Byte) (rest : List Byte) : (s.emitByte b rest).emitting = rest :=
    rfl
@[simp] theorem State.emitByte_position (s : State) (b : Byte) (rest : List Byte) : (s.emitByte b rest).position = s.position :=
    rfl

/-! ### State.hold -/

@[simp] theorem State.hold_regs (s : State) : s.hold.regs = s.regs := rfl
@[simp] theorem State.hold_inBuf (s : State) : s.hold.inBuf = [] := rfl
@[simp] theorem State.hold_outBuf (s : State) : s.hold.outBuf = s.outBuf := rfl
@[simp] theorem State.hold_decoder (s : State) : s.hold.decoder = s.commandBytes := rfl
@[simp] theorem State.hold_emitting (s : State) : s.hold.emitting = s.emitting := rfl
@[simp] theorem State.hold_position (s : State) : s.hold.position = s.position + s.inBuf.length := rfl

/-! ### State.consume -/

@[simp] theorem State.consume_regs (s : State) (rest : List Byte) : (s.consume rest).regs = s.regs := rfl
@[simp] theorem State.consume_inBuf (s : State) (rest : List Byte) : (s.consume rest).inBuf = rest := rfl
@[simp] theorem State.consume_outBuf (s : State) (rest : List Byte) : (s.consume rest).outBuf = s.outBuf := rfl
@[simp] theorem State.consume_decoder (s : State) (rest : List Byte) : (s.consume rest).decoder = [] := rfl
@[simp] theorem State.consume_emitting (s : State) (rest : List Byte) : (s.consume rest).emitting = s.emitting := rfl
@[simp] theorem State.consume_position (s : State) (rest : List Byte) : (s.consume rest).position = s.position + (s.inBuf.length - rest.length) :=
    rfl

/-! ### State.withFetchWord -/

@[simp] theorem State.withFetchWord_regs (s : State) (nbits w : Nat) : (s.withFetchWord nbits w).regs = s.regs := rfl
@[simp] theorem State.withFetchWord_inBuf (s : State) (nbits w : Nat) : (s.withFetchWord nbits w).inBuf = tableBytes nbits w :=
    rfl
@[simp] theorem State.withFetchWord_outBuf (s : State) (nbits w : Nat) : (s.withFetchWord nbits w).outBuf = [] := rfl
@[simp] theorem State.withFetchWord_decoder (s : State) (nbits w : Nat) : (s.withFetchWord nbits w).decoder = [] :=
    rfl
@[simp] theorem State.withFetchWord_emitting (s : State) (nbits w : Nat) : (s.withFetchWord nbits w).emitting = [] :=
    rfl
@[simp] theorem State.withFetchWord_position (s : State) (nbits w : Nat) : (s.withFetchWord nbits w).position = s.position :=
    rfl

/-! ### Reset -/

@[simp] theorem State.reset_regs : State.reset.regs = RegFile.reset := rfl
@[simp] theorem State.reset_inBuf : State.reset.inBuf = [] := rfl
@[simp] theorem State.reset_outBuf : State.reset.outBuf = [] := rfl
@[simp] theorem State.reset_decoder : State.reset.decoder = [] := rfl
@[simp] theorem State.reset_emitting : State.reset.emitting = [] := rfl
@[simp] theorem State.reset_position : State.reset.position = 0 := rfl

/-! ### Updates composed -/

@[simp] theorem State.enqueue_nil (s : State) : s.enqueue [] = s := by simp [State.enqueue]

@[simp] theorem State.enqueue_enqueue (s : State) (a b : List Byte) :
    (s.enqueue a).enqueue b = s.enqueue (a ++ b) := by simp [State.enqueue]

theorem State.setRegs_enqueue (s : State) (r : RegFile) (bytes : List Byte) :
    (s.setRegs r).enqueue bytes = (s.enqueue bytes).setRegs r := rfl

@[simp] theorem State.setRegs_self (s : State) : s.setRegs s.regs = s := rfl

@[simp] theorem State.responseStream_enqueue (s : State) (bytes : List Byte) :
    (s.enqueue bytes).responseStream = s.responseStream ++ bytes := by
  simp [State.responseStream]

@[simp] theorem State.responseStream_setRegs (s : State) (r : RegFile) :
    (s.setRegs r).responseStream = s.responseStream := rfl

@[simp] theorem State.responseStream_hold (s : State) : s.hold.responseStream = s.responseStream := rfl

@[simp] theorem State.responseStream_consume (s : State) (rest : List Byte) :
    (s.consume rest).responseStream = s.responseStream := rfl

/-- Handing a byte over leaves the response stream as it was. -/
theorem State.responseStream_emitByte {s : State} {b : Byte} {rest : List Byte} (h : s.emitting = b :: rest) :
    (s.emitByte b rest).responseStream = s.responseStream := by
  simp [State.responseStream, h]

end Sys2Proof.Machine
end

