-- ==== Sys2Proof/Laws/Ops.lean ====
section
/-! SUPPORT. What each shared operation and the step can do, said once, for later proofs to cite. -/

namespace Sys2Proof.Machine

/-! ### Records -/

@[simp] theorem respond_eq (st : Status) (result : List Byte) (s : State) :
    respond st result s = .next (s.enqueue (record st result)) := rfl

@[simp] theorem raise_eq (st : Status) (s : State) : raise st s = .next (s.enqueue (record st [])) := rfl

@[simp] theorem respondGroup_eq (mec : Half) (payload : List Byte) (s : State) :
    respondGroup mec payload s = .next (s.enqueue (record .ok (buildFrame (buildGroup mec payload)))) := rfl

@[simp] theorem be32_length (n : Nat) : (be32 n).length = 4 := rfl

@[simp] theorem record_length (st : Status) (result : List Byte) :
    (record st result).length = 5 + result.length := by
  simp [record]; omega

/-! ### The register file -/

@[simp] theorem RegFile.read_pi (r : RegFile) : r.read 0#8 = some r.pi := rfl
@[simp] theorem RegFile.read_pty (r : RegFile) : r.read 1#8 = some (r.pty.setWidth 16) := rfl
@[simp] theorem RegFile.read_tpta (r : RegFile) : r.read 2#8 = some (r.tpta.setWidth 16) := rfl
@[simp] theorem RegFile.read_ms (r : RegFile) : r.read 3#8 = some (r.ms.setWidth 16) := rfl
@[simp] theorem RegFile.read_di (r : RegFile) : r.read 4#8 = some (r.di.setWidth 16) := rfl
@[simp] theorem RegFile.read_mode (r : RegFile) : r.read 5#8 = some (r.mode.setWidth 16) := rfl

@[simp] theorem RegFile.write_pi (r : RegFile) (v : Half) : r.write 0#8 v = some { r with pi := v } := rfl
@[simp] theorem RegFile.write_pty (r : RegFile) (v : Half) :
    r.write 1#8 v = some { r with pty := v.setWidth 8 } := rfl
@[simp] theorem RegFile.write_tpta (r : RegFile) (v : Half) :
    r.write 2#8 v = some { r with tpta := v.setWidth 2 } := rfl
@[simp] theorem RegFile.write_ms (r : RegFile) (v : Half) : r.write 3#8 v = some { r with ms := v.setWidth 1 } := rfl
@[simp] theorem RegFile.write_di (r : RegFile) (v : Half) : r.write 4#8 v = some { r with di := v.setWidth 4 } := rfl
@[simp] theorem RegFile.write_mode (r : RegFile) (v : Half) :
    r.write 5#8 v = some { r with mode := v.setWidth 1 } := rfl

/-- A register address is one of the six implemented ones or reserved (10_state R15). -/
theorem regAddr_cases : ∀ a : Byte,
    a = 0#8 ∨ a = 1#8 ∨ a = 2#8 ∨ a = 3#8 ∨ a = 4#8 ∨ a = 5#8 ∨ 6 ≤ a.toNat := by
  decide +kernel

theorem RegFile.read_reserved (r : RegFile) {a : Byte} (h : 6 ≤ a.toNat) : r.read a = none := by
  unfold RegFile.read
  split <;> first | rfl | omega

theorem RegFile.write_reserved (r : RegFile) {a : Byte} (v : Half) (h : 6 ≤ a.toNat) : r.write a v = none := by
  unfold RegFile.write
  split <;> first | rfl | omega

/-! ### The output buffer -/

/-- The buffer is full when it holds OUT_DEPTH bytes or more. -/
theorem State.outFull_iff (s : State) : s.outFull = true ↔ Config.outDepth ≤ s.outBuf.length := by
  unfold State.outFull Config.outDepth
  split <;> simp_all

@[simp] theorem State.outFull_reset : State.reset.outFull = false := rfl

/-! ### The host's moves -/

theorem State.push_some {s t : State} {b : Byte} (h : s.push b = some t) :
    s.inBuf.length < Config.inDepth ∧ t = { s with inBuf := s.inBuf ++ [b] } := by
  simp only [State.push] at h
  split at h
  · next hl => exact ⟨hl, by simpa using h.symm⟩
  · cases h

theorem State.take_some {s t : State} {b : Byte} (h : s.take = some (b, t)) :
    s.outBuf = b :: t.outBuf ∧ t = { s with outBuf := t.outBuf } := by
  simp only [State.take] at h
  split at h
  · cases h
  · next b' rest hb => cases h; exact ⟨hb, rfl⟩

/-! ### The step -/

theorem State.fetch_some {s t : State} {i : Instr} (h : s.fetch = some (i, t)) :
    ∃ rest, decode s.commandBytes = .command i rest ∧ t = s.consume rest := by
  simp only [State.fetch] at h
  split at h
  · next j rest hd => cases h; exact ⟨rest, hd, rfl⟩
  · cases h

theorem State.fetch_none {s : State} (h : s.fetch = none) : isComplete s.commandBytes = false := by
  rw [Bool.eq_false_iff]
  intro hc
  obtain ⟨i, rest, hd⟩ := isComplete_iff.1 hc
  simp [State.fetch, hd] at h

/-- Everything a step can do: hold with the output buffer full, hand one byte over, run one complete command, or consume
what is there and wait. -/
theorem step_cases {s t : State} (h : step s = .next t) :
    (s.outFull = true ∧ t = s) ∨
    (s.outFull = false ∧ ∃ b rest, s.emitting = b :: rest ∧ t = s.emitByte b rest) ∨
    (s.outFull = false ∧ s.emitting = [] ∧
      ∃ i rest, decode s.commandBytes = .command i rest ∧ exec i (s.consume rest) = .next t) ∨
    (s.outFull = false ∧ s.emitting = [] ∧ isComplete s.commandBytes = false ∧ t = s.hold) := by
  unfold step at h
  split at h
  · next hf => cases h; exact .inl ⟨hf, rfl⟩
  · next hf =>
    have hf : s.outFull = false := by simpa using hf
    split at h
    · next b rest he => cases h; exact .inr (.inl ⟨hf, b, rest, he, rfl⟩)
    · next he =>
      split at h
      · next i u hfetch =>
        obtain ⟨rest, hd, rfl⟩ := State.fetch_some hfetch
        exact .inr (.inr (.inl ⟨hf, he, i, rest, hd, h⟩))
      · next hn => cases h; exact .inr (.inr (.inr ⟨hf, he, State.fetch_none hn, rfl⟩))

end Sys2Proof.Machine
end

