-- ==== Sys2Proof/Laws/PerInstr.lean ====
section
/-! SUPPORT. Statements about every command as syntax, one lemma per constructor. -/

namespace Sys2Proof.Laws.EncodedLength

/-- CmdLength of an encoded command, whatever follows it, is the number of bytes the encoder wrote (30_encoding R46). -/
def Statement (i : Instr) : Prop :=
  i.wellFormed = true → ∀ rest, cmdLength (encode i ++ rest) = some (encode i).length

theorem encPi : Statement .encPi := fun _ _ => rfl
theorem encTpta : Statement .encTpta := fun _ _ => rfl
theorem encDi : Statement .encDi := fun _ _ => rfl
theorem encMs : Statement .encMs := fun _ _ => rfl
theorem encPty : Statement .encPty := fun _ _ => rfl

/-- The format B commands. -/
theorem of_encodeB (o : Opcode) (data : List Byte) (ho : o.format = .b) (h : fitsByteCount data = true)
    (rest : List Byte) : cmdLength (encodeB o data ++ rest) = some (encodeB o data).length := by
  have := byteCount_toNat h
  simp [encodeB, byteCount, cmdLength, ho, be16, this]
  omega

/-- The format L commands. -/
theorem of_encodeL (o : Opcode) (freqs : List Half) (ho : o.format = .l) (h : fitsEntryCount freqs = true)
    (rest : List Byte) : cmdLength (encodeL o freqs ++ rest) = some (encodeL o freqs).length := by
  have := entryCount_toNat h
  simp [encodeL, entryCount, cmdLength, ho, this]
  omega

theorem encPs (text : List Byte) : Statement (.encPs text) := fun h => of_encodeB .encPs text rfl h
theorem encRt (text : List Byte) : Statement (.encRt text) := fun h => of_encodeB .encRt text rfl h
theorem frame (data : List Byte) : Statement (.frame data) := fun h => of_encodeB .frame data rfl h
theorem crc16 (data : List Byte) : Statement (.crc16 data) := fun h => of_encodeB .crc16 data rfl h
theorem stuff (data : List Byte) : Statement (.stuff data) := fun h => of_encodeB .stuff data rfl h
theorem encAf (freqs : List Half) : Statement (.encAf freqs) := fun h => of_encodeL .encAf freqs rfl h
theorem afpayload (freqs : List Half) : Statement (.afpayload freqs) := fun h => of_encodeL .afpayload freqs rfl h

theorem group (mec : Half) (data : List Byte) : Statement (.group mec data) := by
  intro h rest
  have := byteCount_toNat h
  simp [encode, byteCount, cmdLength, be16, this, show Opcode.group.format = .g from rfl]
  omega

theorem encClock (year : Half) (month day hour minute second : Byte) :
    Statement (.encClock year month day hour minute second) := fun _ _ => rfl
theorem afmap (freq : Half) : Statement (.afmap freq) := fun _ _ => rfl
theorem wrreg (addr : Byte) (value : Half) : Statement (.wrreg addr value) := fun _ _ => rfl
theorem rdreg (addr : Byte) : Statement (.rdreg addr) := fun _ _ => rfl

theorem illegal (op : Byte) : Statement (.illegal op) := by
  intro h rest
  simp [encode, cmdLength, formatOf, Opcode.ofByte?_of_illegal h]

end Sys2Proof.Laws.EncodedLength
end

