-- ==== Sys2Proof/Machine/Assembler.lean ====
section
/-! DEFINITION. The assembly syntax of the spec's programs and its pseudo-commands (30_encoding R51, R52). Notation outside the
core: the core sees only the bytes a line stands for. What R51 leaves open about a line's text is log entry 12. -/

namespace Sys2Proof.Machine.Asm

/-! ### Text -/

/-- The double quote that opens and closes a text operand (R51). -/
def quote : Char := Char.ofNat 34

/-- A line without its comment: a `;` outside a quoted string starts one (R51). -/
def stripComment : Bool → List Char → List Char
  | _, [] => []
  | quoted, c :: cs =>
    if c = quote then c :: stripComment (!quoted) cs
    else if c = ';' && !quoted then []
    else c :: stripComment quoted cs

/-- A text without the spaces at its two ends. -/
def trim (cs : List Char) : List Char :=
  ((cs.dropWhile (· = ' ')).reverse.dropWhile (· = ' ')).reverse

/-- The pieces of a text between its commas, those inside a quoted string excepted (R51). -/
def splitCommas : Bool → List Char → List (List Char)
  | _, [] => [[]]
  | quoted, c :: cs =>
    if c = ',' && !quoted then [] :: splitCommas quoted cs
    else
      match splitCommas (if c = quote then !quoted else quoted) cs with
      | [] => [[c]]
      | piece :: pieces => (c :: piece) :: pieces

/-- The operands of a line: none where nothing is written (R51). -/
def operands (cs : List Char) : List (List Char) :=
  if trim cs = [] then [] else (splitCommas false cs).map trim

/-! ### Numbers and byte strings -/

/-- A decimal digit. -/
def decDigit (c : Char) : Option Nat :=
  if '0' ≤ c ∧ c ≤ '9' then some (c.toNat - '0'.toNat) else none

/-- A digit of a lower-case hex string (R8). -/
def hexDigitLower (c : Char) : Option Nat :=
  if 'a' ≤ c ∧ c ≤ 'f' then some (c.toNat - 'a'.toNat + 10) else decDigit c

/-- A digit of a number written 0x.., which the spec writes in either case (R8). -/
def hexDigit (c : Char) : Option Nat :=
  if 'A' ≤ c ∧ c ≤ 'F' then some (c.toNat - 'A'.toNat + 10) else hexDigitLower c

/-- The number a nonempty list of digits spells in a base. -/
def digits (digit : Char → Option Nat) (base : Nat) (cs : List Char) : Option Nat :=
  if cs = [] then none
  else cs.foldlM (fun acc c => (digit c).map fun d => acc * base + d) 0

/-- A number, hexadecimal after 0x and decimal otherwise (R8, R51). -/
def number : List Char → Option Nat
  | '0' :: 'x' :: cs => digits hexDigit 16 cs
  | cs => digits decDigit 10 cs

/-- A number as a field of `w` bits; an assembly error where it does not fit. -/
def field (w : Nat) (cs : List Char) : Option (BitVec w) :=
  (number cs).bind fun n => if n < 2 ^ w then some (BitVec.ofNat w n) else none

/-- The bytes of a hex string, two lower-case digits a byte (R8). -/
def hexBytes : List Char → Option (List Byte)
  | [] => some []
  | hi :: lo :: cs => do
    let h ← hexDigitLower hi
    let l ← hexDigitLower lo
    let rest ← hexBytes cs
    pure (BitVec.ofNat 8 (h * 16 + l) :: rest)
  | _ => none

/-- The bytes of a quoted text after its opening quote: ASCII, no terminator (R51). -/
def quotedBytes : List Char → Option (List Byte)
  | [] => none
  | [c] => if c = quote then some [] else none
  | c :: cs =>
    if c = quote ∨ 128 ≤ c.toNat then none
    else (quotedBytes cs).map fun rest => BitVec.ofNat 8 c.toNat :: rest

/-- A data operand: a quoted text or a hex string (R51). -/
def bytes (cs : List Char) : Option (List Byte) :=
  match cs with
  | [] => some []
  | c :: rest => if c = quote then quotedBytes rest else hexBytes cs

/-- A frequency in MHz with up to two decimals, as FREQ = MHz × 100 exactly; an assembly error with more decimals or above
65 535 (R51). -/
def mhz (cs : List Char) : Option Half :=
  let whole := digits decDigit 10 (cs.takeWhile (· ≠ '.'))
  let hundredths : Option Nat :=
    match cs.dropWhile (· ≠ '.') with
    | [] => some 0
    | ['.', d] => (decDigit d).map (· * 10)
    | ['.', d, e] => (decDigit d).bind fun a => (decDigit e).map fun b => a * 10 + b
    | _ => none
  whole.bind fun w => hundredths.bind fun h =>
    if w * 100 + h ≤ 65535 then some (BitVec.ofNat 16 (w * 100 + h)) else none

/-- A register operand: a name of the register map or a number (R15, R51). -/
def regAddr (cs : List Char) : Option Byte :=
  if cs = "PI".toList then some 0x00
  else if cs = "PTY".toList then some 0x01
  else if cs = "TPTA".toList then some 0x02
  else if cs = "MS".toList then some 0x03
  else if cs = "DI".toList then some 0x04
  else if cs = "MODE".toList then some 0x05
  else field 8 cs

/-! ### Pseudo-commands -/

/-- SET_STATION pi, pty, tp, ta, ms, di (R52). -/
def setStation (pi pty tpta ms di : Half) : List Instr :=
  [.wrreg 0x00 pi, .wrreg 0x01 pty, .wrreg 0x02 tpta, .wrreg 0x03 ms, .wrreg 0x04 di]

/-- STATIC_INIT: TP/TA, PI, PTY, MS, DI in that fixed order (R52, R66). -/
def staticInit : List Instr := [.encTpta, .encPi, .encPty, .encMs, .encDi]

/-- SET_CLOCK_VARIANT (R52). -/
def setClockVariant (yearFirst : Bool) : List Instr := [.wrreg 0x05 (if yearFirst then 1 else 0)]

/-! ### Lines -/

/-- The one data operand of a format B line, empty where nothing is written (R51). -/
def dataOperand : List (List Char) → Option (List Byte)
  | [] => some []
  | [d] => bytes d
  | _ => none

/-- A command without operands. -/
def bare (i : List Instr) : List (List Char) → Option (List Instr)
  | [] => some i
  | _ => none

/-- The commands a mnemonic and its operands stand for, a pseudo-command expanded (R51, R52). -/
def commands (mnemonic : List Char) (ops : List (List Char)) : Option (List Instr) :=
  if mnemonic = "ENC_PI".toList then bare [.encPi] ops
  else if mnemonic = "ENC_TPTA".toList then bare [.encTpta] ops
  else if mnemonic = "ENC_DI".toList then bare [.encDi] ops
  else if mnemonic = "ENC_MS".toList then bare [.encMs] ops
  else if mnemonic = "ENC_PTY".toList then bare [.encPty] ops
  else if mnemonic = "ENC_PS".toList then (dataOperand ops).map fun d => [.encPs d]
  else if mnemonic = "ENC_RT".toList then (dataOperand ops).map fun d => [.encRt d]
  else if mnemonic = "FRAME".toList then (dataOperand ops).map fun d => [.frame d]
  else if mnemonic = "CRC16".toList then (dataOperand ops).map fun d => [.crc16 d]
  else if mnemonic = "STUFF".toList then (dataOperand ops).map fun d => [.stuff d]
  else if mnemonic = "GROUP".toList then
    match ops with
    | [mec, d] => do pure [.group (← field 16 mec) (← bytes d)]
    | _ => none
  else if mnemonic = "ENC_CLOCK".toList then
    match ops with
    | [y, mo, d, h, mi, s] => do
      pure [.encClock (← field 16 y) (← field 8 mo) (← field 8 d) (← field 8 h) (← field 8 mi) (← field 8 s)]
    | _ => none
  else if mnemonic = "AFMAP".toList then
    match ops with
    | [f] => (mhz f).map fun v => [.afmap v]
    | _ => none
  else if mnemonic = "ENC_AF".toList then (ops.mapM mhz).map fun fs => [.encAf fs]
  else if mnemonic = "AFPAYLOAD".toList then (ops.mapM mhz).map fun fs => [.afpayload fs]
  else if mnemonic = "WRREG".toList then
    match ops with
    | [a, v] => do pure [.wrreg (← regAddr a) (← field 16 v)]
    | _ => none
  else if mnemonic = "RDREG".toList then
    match ops with
    | [a] => (regAddr a).map fun v => [.rdreg v]
    | _ => none
  else if mnemonic = "SET_STATION".toList then
    match ops with
    | [pi, pty, tp, ta, ms, di] => do
      let v := ((← number tp) <<< 1) ||| (← number ta)
      if v < 65536 then
        pure (setStation (← field 16 pi) (← field 16 pty) (BitVec.ofNat 16 v) (← field 16 ms) (← field 16 di))
      else none
    | _ => none
  else if mnemonic = "STATIC_INIT".toList then bare staticInit ops
  else if mnemonic = "SET_CLOCK_VARIANT".toList then
    match ops with
    | [v] =>
      if v = "dayFirst".toList then some (setClockVariant false)
      else if v = "yearFirst".toList then some (setClockVariant true)
      else none
    | _ => none
  else none

/-- The bytes of a list of commands; an assembly error where one is too long for its count field (R42). -/
def encodeAll : List Instr → Option (List Byte)
  | [] => some []
  | i :: is => if i.wellFormed then (encodeAll is).map fun rest => encode i ++ rest else none

/-- The command bytes one line stands for; `none` is an assembly error, and an empty line stands for nothing (R51). -/
def assembleLine (line : String) : Option (List Byte) :=
  let text := trim (stripComment false line.toList)
  let mnemonic := text.takeWhile (· ≠ ' ')
  let rest := text.dropWhile (· ≠ ' ')
  if text = [] then some []
  else if mnemonic = ".byte".toList then
    match operands rest with
    | [h] => hexBytes h
    | _ => none
  else (commands mnemonic (operands rest)).bind encodeAll

/-- The command stream of a program, one command a line (R51). -/
def assemble : List String → Option (List Byte)
  | [] => some []
  | l :: ls => (assembleLine l).bind fun b => (assemble ls).map fun rest => b ++ rest

end Sys2Proof.Machine.Asm
end

