-- ==== Sys2Proof/Tests/Slice0.lean ====
section
/-! SUPPORT. Tests. Every expected byte is transcribed from 95_test_vectors.md (its vector's name stands in the theorem's
docstring) or written out by hand from the rule named; and, for every statement with hypotheses, a witness that meets them. -/

namespace Sys2Proof.Tests

-- Each closed check below waits for the kernel to have accepted the declarations before it. Elaborated all at once they would
-- hold one thread each; one after the other they hold one.
set_option Elab.async false

open Sys2Proof.Machine

/-- The bytes of a hex string (00_scope R8). -/
def hex (s : String) : List Byte := (Asm.hexBytes s.toList).getD []

/-- The record a command answers on a core just reset but for its registers. -/
def answer (i : Instr) (r : RegFile := .reset) : List Byte := (runAlone i r).1

/-- The record a command given by its bytes answers, alone. -/
def answerTo (command : String) (r : RegFile := .reset) : List Byte :=
  match decode (hex command) with
  | .command i [] => answer i r
  | _ => []

/-! ### Well-formedness: each check refuses a term -/

theorem bytes_too_many : fitsByteCount (List.replicate 65536 0) = false := by
  rw [fitsByteCount, List.length_replicate]; rfl
theorem test_wf_ps_too_long : (Instr.encPs (List.replicate 65536 0)).wellFormed = false := bytes_too_many
theorem test_wf_rt_too_long : (Instr.encRt (List.replicate 65536 0)).wellFormed = false := bytes_too_many
theorem test_wf_group_too_long : (Instr.group 0 (List.replicate 65536 0)).wellFormed = false := bytes_too_many
theorem test_wf_frame_too_long : (Instr.frame (List.replicate 65536 0)).wellFormed = false := bytes_too_many
theorem test_wf_crc16_too_long : (Instr.crc16 (List.replicate 65536 0)).wellFormed = false := bytes_too_many
theorem test_wf_stuff_longest : (Instr.stuff (List.replicate 65535 0)).wellFormed = true ∧
    (Instr.stuff (List.replicate 65536 0)).wellFormed = false :=
  ⟨by rw [Instr.wellFormed, fitsByteCount, List.length_replicate]; rfl, bytes_too_many⟩
theorem test_wf_af_longest : (Instr.encAf (List.replicate 255 0)).wellFormed = true ∧
    (Instr.encAf (List.replicate 256 0)).wellFormed = false := by decide +kernel
theorem test_wf_afpayload_too_long : (Instr.afpayload (List.replicate 256 0)).wellFormed = false := by decide +kernel
theorem test_wf_illegal_names_a_command : (Instr.illegal 0x81).wellFormed = false := by decide
/-- R45: 239 opcodes are illegal. -/
theorem test_illegal_count : ((List.range 256).filter fun n => isIllegalOpcode (BitVec.ofNat 8 n)).length = 239 := by
  decide +kernel

/-! ### Decoding: words written out from R42 and R44 -/

theorem test_decode_encPi : decode [0x01] = .command .encPi [] := by decide
/-- S1. -/
theorem test_decode_encPs : decode (hex "02000444454d4f") = .command (.encPs [0x44, 0x45, 0x4d, 0x4f]) [] := by
  decide +kernel
theorem test_decode_encTpta : decode [0x03, 0xaa] = .command .encTpta [0xaa] := by decide
theorem test_decode_encDi : decode [0x04] = .command .encDi [] := by decide
theorem test_decode_encMs : decode [0x05] = .command .encMs [] := by decide
theorem test_decode_encPty : decode [0x07] = .command .encPty [] := by decide
/-- D-RT-2. -/
theorem test_decode_encRt : decode (hex "0a000548656c6c6f") = .command (.encRt [0x48, 0x65, 0x6c, 0x6c, 0x6f]) [] := by
  decide +kernel
theorem test_decode_encClock : decode (hex "0d07ea0b0c0d2238") = .command (.encClock 2026 11 12 13 34 56) [] := by
  decide +kernel
/-- S7. -/
theorem test_decode_encAf : decode (hex "13012418") = .command (.encAf [9240]) [] := by decide +kernel
/-- D-GR-5. -/
theorem test_decode_group : decode (hex "800d1900020102") = .command (.group 0x0d19 [0x01, 0x02]) [] := by
  decide +kernel
/-- D-FR-3. -/
theorem test_decode_frame : decode (hex "810001fe") = .command (.frame [0xfe]) [] := by decide +kernel
/-- D-CRC-3. -/
theorem test_decode_crc16 : decode (hex "820001ff") = .command (.crc16 [0xff]) [] := by decide +kernel
/-- D-ST-8. -/
theorem test_decode_stuff : decode (hex "83000400fffe01") = .command (.stuff [0x00, 0xff, 0xfe, 0x01]) [] := by
  decide +kernel
/-- D-AFM-4. -/
theorem test_decode_afmap : decode (hex "842a26") = .command (.afmap 10790) [] := by decide +kernel
/-- D-AFP-2. -/
theorem test_decode_afpayload : decode (hex "850222382a26") = .command (.afpayload [8760, 10790]) [] := by
  decide +kernel
/-- D-RG-4. -/
theorem test_decode_wrreg : decode (hex "c0011234") = .command (.wrreg 0x01 0x1234) [] := by decide +kernel
/-- D-RG-13. -/
theorem test_decode_rdreg : decode (hex "c1ff") = .command (.rdreg 0xff) [] := by decide +kernel
/-- P4: the byte after an illegal opcode is left to be decoded as an opcode. -/
theorem test_decode_illegal : decode (hex "00c0") = .command (.illegal 0x00) [0xc0] := by decide +kernel
/-- D-HD-1, D-HD-2, D-HD-3: the three ways a sequence is too short, each by its name. -/
theorem test_decode_incomplete : decode [] = .noOpcode ∧ decode (hex "8100") = .lengthUnknown ∧
    decode (hex "02000444454d") = .short 7 ∧ decode (hex "c0c1") = .short 4 := by decide +kernel
/-- Each row's opcode-table word with zero operands. -/
theorem test_decodeTableWord :
    [0x01, 0x02, 0x03, 0x04, 0x05, 0x07, 0x0A, 0x0D, 0x13, 0x80, 0x81, 0x82, 0x83, 0x84, 0x85, 0xC0, 0xC1, 0x00].map
      (decodeTableWord 8) =
    [some .encPi, some (.encPs []), some .encTpta, some .encDi, some .encMs, some .encPty, some (.encRt []),
      some (.encClock 0 0 0 0 0 0), some (.encAf []), some (.group 0 []), some (.frame []), some (.crc16 []),
      some (.stuff []), some (.afmap 0), some (.afpayload []), some (.wrreg 0 0), some (.rdreg 0),
      some (.illegal 0)] := by decide +kernel
/-- A later byte's bits count on from the first's: WRREG PTY, 0x1234 as one number. -/
theorem test_decodeTableWord_operands : decodeTableWord 32 0x341201C0 = some (.wrreg 0x01 0x1234) := by decide +kernel

/-! ### What each command answers -/

/-- S3 and D-EN-5 (data bytes stuffed). -/
theorem test_encPi : answerTo "01" { RegFile.reset with pi := 0x1337 } = hex "000000000dfe0000000501000013371e49ff" ∧
    answerTo "01" { RegFile.reset with pi := 0xFEFF } = hex "000000000ffe00000005010000fefdfffd20e3ff" := by
  decide +kernel
/-- S1 and D-PS-3 (truncation). -/
theorem test_encPs : answerTo "02000444454d4f" = hex "0000000013fe0000000b02000044454d4f202020209180ff" ∧
    answerTo "02000a524144494f203120464d" = hex "0000000013fe0000000b020000524144494f203120d520ff" := by decide +kernel
/-- S2 and D-EN-2. -/
theorem test_encTpta : answerTo "03" { RegFile.reset with tpta := 2 } = hex "000000000cfe0000000403000002fc59ff" ∧
    answerTo "03" { RegFile.reset with tpta := 1 } = hex "000000000cfe0000000403000001cc3aff" := by decide +kernel
/-- D-EN-11 and S6. -/
theorem test_encDi : answerTo "04" { RegFile.reset with di := 0xF } = hex "000000000cfe000000040400000f7cd9ff" ∧
    answerTo "04" = hex "000000000cfe00000004040000008d36ff" := by decide +kernel
/-- S5 and D-EN-10. -/
theorem test_encMs : answerTo "05" { RegFile.reset with ms := 1 } = hex "000000000cfe0000000405000001eba3ff" ∧
    answerTo "05" = hex "000000000cfe0000000405000000fb82ff" := by decide +kernel
/-- S4 and D-EN-9 (outside 0-31). -/
theorem test_encPty : answerTo "07" { RegFile.reset with pty := 15 } = hex "000000000cfe000000040700000fe705ff" ∧
    answerTo "07" { RegFile.reset with pty := 0x28 } = hex "000000000cfe0000000407000028b380ff" := by decide +kernel
/-- D-RT-2 and D-RT-1 (77 bytes, 0x4d). -/
theorem test_encRt : answerTo "0a000548656c6c6f" = hex "000000004dfe000000450a00004100" ++ hex "48656c6c6f" ++
      List.replicate 59 0x20 ++ hex "9ca9ff" ∧
    answerTo "0a0000" = hex "000000004dfe000000450a00004100" ++ List.replicate 64 0x20 ++ hex "4a9fff" := by
  decide +kernel
/-- D-CK-1 (dayFirst). -/
theorem test_encClock_dayFirst : answerTo "0d07ea0b0b0c2238" = hex "0000000011fe000000090d19060b0c2238000097fdff" := by
  decide +kernel
/-- D-CK-4 (yearFirst, year 65535, stuffed field bytes). -/
theorem test_encClock_yearFirst : answerTo "0dfffffffeff0000" { RegFile.reset with mode := 1 } =
    hex "0000000016fe0000000b0d190623fffdfefdfffd000000003247ff" := by decide +kernel
/-- S7 and D-AF-4. -/
theorem test_encAf : answerTo "13012418" = hex "0000000012fe0000000a130000050000e1310060643bff" ∧
    answerTo "13042260232823f024b8" = hex "000000001cfe000000141300000f0000eb05192d410000000000000000ac397dff" := by
  decide +kernel
/-- D-AF-0 and D-AF-12. -/
theorem test_encAf_status : answerTo "1300" = hex "0100000000" ∧
    answerTo "130c226022c42328238c23f0245424b8251c258025e4264826ac" = hex "0200000000" := by decide +kernel
/-- D-GR-3 and D-GR-6: the widest one-byte MEC and the widest two-byte one. -/
theorem test_group : answerTo "8000ff0001aa" = hex "0000000004ff0000aa" ∧ answerTo "80ffff0000" = hex "0000000003ffff00" := by
  decide +kernel
/-- D-FR-6 (stuffed CRC byte) and D-FR-1 (empty message). -/
theorem test_frame : answerTo "810005010000000f" = hex "000000000efe00000005010000000ffffd32ff" ∧
    answerTo "810000" = hex "0000000008fe000000007b3fff" := by decide +kernel
/-- D-FR-7 and D-FR-9: the stuffed length byte, and the length quirk of a 256-byte message. -/
theorem test_frame_length : buildFrame (List.replicate 254 0) = hex "fe000000fefd" ++ List.replicate 254 0 ++ hex "c135ff" ∧
    buildFrame (List.replicate 256 0) = hex "fe00000000" ++ List.replicate 256 0 ++ hex "ee47ff" := by decide +kernel
/-- D-CRC-4 and D-CRC-1. -/
theorem test_crc16 : answerTo "820009313233343536373839" = hex "0000000002d64e" ∧
    answerTo "820000" = hex "00000000020000" := by decide +kernel
/-- D-ST-6 and D-ST-5. -/
theorem test_stuff : answerTo "830003fefdff" = hex "0000000005fefdfdfffd" ∧
    answerTo "830002fefd" = hex "0000000003fefdfd" := by decide +kernel
/-- D-AFM-1 to D-AFM-5: both ends of the band. -/
theorem test_afmap_band : answerTo "842237" = hex "0300000000" ∧ answerTo "842238" = hex "000000000101" ∧
    answerTo "842a26" = hex "0000000001cc" ∧ answerTo "842a27" = hex "0300000000" := by decide +kernel
/-- D-AFM-7, D-AFM-8, D-AFM-9: rounding. -/
theorem test_afmap_rounding : answerTo "84223c" = hex "000000000101" ∧ answerTo "84223d" = hex "000000000102" ∧
    answerTo "842247" = hex "000000000103" := by decide +kernel
/-- D-AFP-2, D-AFP-3, D-AFP-11. -/
theorem test_afpayload_layouts : answerTo "850222382a26" = hex "0000000009070000e201cc0000d3" ∧
    answerTo "85032260232823f0" = hex "0000000009070000e305192d00ee" ∧
    answerTo "850b2260232823f024b825802648271027d828a029682a30" =
      hex "00000000110f0000eb05192d4155697d91a5b90000ac" := by decide +kernel
/-- D-AFP-0b, D-AFP-12, D-AFP-12b: nothing to send, too many, and the count taken after dropping. -/
theorem test_afpayload_status : answerTo "8502222e2a30" = hex "0100000000" ∧
    answerTo "850c226022c42328238c23f0245424b8251c258025e4264826ac" = hex "0200000000" ∧
    answerTo "850c226022c42328238c23f0245424b8251c258025e426482ee0" =
      hex "00000000110f0000eb050f19232d37414b555f6900ac" := by decide +kernel
/-- D-RG-4, D-RG-6, D-RG-8, D-RG-10: reserved bits dropped. -/
theorem test_wrreg : (runAlone (.wrreg 1 0x1234) .reset).2 = { RegFile.reset with pty := 0x34 } ∧
    (runAlone (.wrreg 2 0xffff) .reset).2 = { RegFile.reset with tpta := 3 } ∧
    (runAlone (.wrreg 4 0x00ff) .reset).2 = { RegFile.reset with di := 0xF } ∧
    (runAlone (.wrreg 5 0x0003) .reset).2 = { RegFile.reset with mode := 1 } := by decide +kernel
/-- D-RG-2 and D-RG-12. -/
theorem test_wrreg_record : answerTo "c0001337" = hex "0000000000" ∧ answerTo "c0060001" = hex "0500000000" := by
  decide +kernel
/-- D-RG-3, D-RG-7, D-RG-13. -/
theorem test_rdreg : answerTo "c100" { RegFile.reset with pi := 0x1337 } = hex "00000000021337" ∧
    answerTo "c102" { RegFile.reset with tpta := 3 } = hex "00000000020003" ∧
    answerTo "c1ff" = hex "0500000000" := by decide +kernel
/-- D-IL-1 and D-IL-4. -/
theorem test_illegal : answerTo "00" = hex "0400000000" ∧ answerTo "fe" = hex "0400000000" := by decide +kernel

/-! ### The step -/

/-- The state a step answers, or reset's where it answers none. -/
def after (s : State) : State :=
  match step s with
  | .next t => t
  | _ => .reset

/-- From reset with a command placed, the next step runs it: the record of D-EN-1, one byte consumed. -/
theorem test_step_runs : after (State.reset.withFetchWord 8 0x03) =
    { State.reset with emitting := hex "000000000cfe0000000403000000dc1bff", position := 1 } := by decide +kernel
/-- D-HD-3: WRREG needs four bytes, so 0xC1 is its ADDR; the two bytes are consumed and nothing is answered. -/
theorem test_step_holds : after { State.reset with inBuf := hex "c0c1" } =
    { State.reset with decoder := hex "c0c1", position := 2 } := by decide +kernel
/-- D-HD-3, the missing bytes pushed: ERR_BAD_REGISTER, and the position at the command's length. -/
theorem test_step_completes : after { State.reset with decoder := hex "c0c1", inBuf := hex "0000", position := 2 } =
    { State.reset with emitting := hex "0500000000", position := 4 } := by decide +kernel
/-- The host's parse of S6's record and what follows it. -/
theorem test_parseRecord : parseRecord (hex "000000000cfe00000004040000008d36ff0400") =
    some (0x00, hex "fe00000004040000008d36ff", [0x04, 0x00]) := by decide +kernel

/-! ### The assembler -/

/-- The command stream of P1. -/
theorem test_assemble_p1 : Asm.assemble ["SET_STATION 0x1337, 15, 1, 0, 1, 0", "STATIC_INIT", "RDREG TPTA"] =
    some (hex "c0001337c001000fc0020002c0030001c00400000301070504c102") := by decide +kernel
/-- Lines of P2 and P3, a comment, and an assembly error. -/
theorem test_assemble_lines :
    Asm.assembleLine "ENC_AF 87.5, 94.8, 101.1, 120.0, 105.5, 88.1" = some (hex "1306222e2508277e2ee02936226a") ∧
    Asm.assembleLine "ENC_PS \"RADIO 1 FM\" ; D-PS-3" = some (hex "02000a524144494f203120464d") ∧
    Asm.assembleLine "ENC_CLOCK 2026, 11, 11, 12, 34, 56" = some (hex "0d07ea0b0b0c2238") ∧
    Asm.assembleLine "SET_CLOCK_VARIANT yearFirst" = some (hex "c0050001") ∧
    Asm.assembleLine "GROUP 0x0000, " = some (hex "8000000000") ∧ Asm.assembleLine ".byte 00" = some (hex "00") ∧
    Asm.assembleLine "AFMAP 655.36" = none ∧ Asm.assembleLine "AFMAP 87.655" = none := by decide +kernel

/-! ### Witnesses: the hypotheses of each statement are met -/

theorem inDepth_pos : 0 < Config.inDepth := Nat.succ_pos _
theorem outDepth_pos : 0 < Config.outDepth := Nat.succ_pos _

theorem reset_inv : State.reset.Inv :=
  ⟨Nat.zero_le _, Nat.zero_le _, rfl, by decide, Nat.zero_le _, by decide⟩

/-- A core with the one-byte command ENC_TPTA in its input buffer. -/
def ready : State := { State.reset with inBuf := [0x03] }

theorem ready_inv : ready.Inv := ⟨inDepth_pos, Nat.zero_le _, rfl, by decide, Nat.zero_le _, by decide⟩

theorem witness_ResetLeavesTheResetState : ∃ b t, State.reset.push b = some t :=
  ⟨0x03, _, if_pos inDepth_pos⟩
theorem witness_EncTptaAnswersTheTpTaFrame : (State.reset.setRegs { RegFile.reset with tpta := 2 }).regs.tpta = 2 := rfl
theorem witness_EncPiAnswersThePiFrame : (State.reset.setRegs { RegFile.reset with pi := 0x1337 }).regs.pi = 0x1337 := rfl
theorem witness_EncPtyAnswersThePtyFrame : (State.reset.setRegs { RegFile.reset with pty := 15 }).regs.pty = 15 := rfl
theorem witness_EncMsAnswersTheMusicSpeechFrame : (State.reset.setRegs { RegFile.reset with ms := 1 }).regs.ms = 1 := rfl
theorem witness_EncDiAnswersTheDecoderInfoFrame : State.reset.regs.di = 0 := rfl
theorem witness_ReservedBitsAreDroppedAndReadAsZero : (5 : Byte).toNat < 6 ∧ (4 : Byte) ≠ 5 := by decide
theorem witness_OnlyWrregChangesARegister : ∃ s t : State, step s = .next t ∧ t.regs ≠ s.regs :=
  ⟨{ State.reset with inBuf := [0xC0, 0x03, 0x00, 0x01] }, _, rfl, by decide⟩
theorem witness_StuffedOutputMarksExactlyTheInsertedBytes :
    (0xFD, true) ∈ markedStuff [0xFE, 0x01] ∧ (markedStuff [0xFE, 0x01])[0]? = some (0xFE, false) ∧
    isDelimiter 0xFE = true ∧ (markedStuff [0xFE, 0x01])[0 + 1]? = some (0xFD, true) ∧
    (markedStuff [0xFE, 0x01])[1 + 1]? = some (0x01, false) := by decide
theorem witness_ResultsFitTheLengthField : Instr.encPi.wellFormed = true ∧
    (List.replicate 65535 (0xFE : Byte)).length = 65535 ∧
    ∀ b ∈ List.replicate 65535 (0xFE : Byte), b = 0xFE ∨ b = 0xFF :=
  ⟨rfl, List.length_replicate, fun _ h => .inl (List.eq_of_mem_replicate h)⟩
theorem witness_PadTruncGivesExactlyItsWidth : (7 : Nat) < 8 := by decide
theorem witness_MapperRejectsExactlyOutsideItsBand :
    8760 ≤ (8760 : Half).toNat ∧ (8760 : Half).toNat ≤ 10790 ∧ 8760 ≤ (10790 : Half).toNat ∧
    (10790 : Half).toNat ≤ 10790 ∧ encodeAf 8759 = none ∧ encodeAf 10791 = none := by decide
theorem witness_MapperIsExactOnGridAndRoundsHalvesUp : 1 ≤ (204 : Nat) ∧ (204 : Nat) ≤ 204 ∧
    8760 ≤ (8765 : Half).toNat ∧ (8765 : Half).toNat ≤ 10790 := by decide
theorem witness_MapperEqualsTheTableLookup : encodeAf 8760 = some 1 ∧ encodeAf 10790 = some 204 := by decide +kernel
theorem witness_SelectorLayoutsByListLength :
    (([] : List Half).filterMap encodeAf).length = 0 ∧ [9240].filterMap encodeAf = [0x31] ∧
    [9240, 9250].filterMap encodeAf = [0x31, 0x32] ∧ [9240, 9250, 9260].filterMap encodeAf = [0x31, 0x32, 0x33] ∧
    ((List.replicate 4 (9240 : Half)).filterMap encodeAf).length = 4 ∧
    ((List.replicate 11 (9240 : Half)).filterMap encodeAf).length = 11 ∧
    ((List.replicate 12 (9240 : Half)).filterMap encodeAf).length = 12 := by decide +kernel
theorem witness_AfPayloadLengthsAndBytes :
    buildAfPayload [9240] = .payload (hex "050000e1310060") ∧
    buildAfPayload [9240, 9240] = .payload (hex "070000e231310000d3") ∧
    buildAfPayload [8800, 9000, 9200, 9400] = .payload (hex "0f0000eb05192d410000000000000000ac") := by decide +kernel
theorem witness_DecodeOfEncodeIsTheCommand : (Instr.wrreg 0x01 0x1234).wellFormed = true := rfl
theorem witness_EncodeOfDecodeIsTheBytes : decode [0xC1, 0x05, 0x01] = .command (.rdreg 0x05) [0x01] := by decide
theorem witness_LengthIsKnownFromFiveBytes :
    cmdLength (([0x80, 0x00, 0x13, 0x00, 0x07, 0xAA] : List Byte).take 5) = some 12 ∧
    5 ≤ ([0x80, 0x00, 0x13, 0x00, 0x07] : List Byte).length := by decide
theorem witness_CommandsAreOneTo65540Bytes : cmdLength [0x80, 0x00, 0x13, 0xFF, 0xFF] = some 65540 ∧
    cmdLength [0x03] = some 1 ∧ decode [0x03, 0xAA] = .command .encTpta [0xAA] := by decide
theorem witness_IllegalOpcodesAreExactlyTheListed :
    isIllegalOpcode 0xC2 = true ∧ isIllegalOpcode 0xC1 = false ∧
    decode [0x06, 0x03] = .command (.illegal 0x06) [0x03] := by decide
theorem witness_TwelveCommandsNeverRaiseAnError : Instr.encPi ∈
    [.group 0 [], .frame [], .crc16 [], .stuff [], .encTpta, .encPi, .encPty, .encMs, .encDi, .encPs [], .encRt [],
      .encClock 0 0 0 0 0 0] := by decide
theorem witness_AnswersDependOnRegistersAndOperandsOnly : ready.regs = State.reset.regs ∧ ready ≠ State.reset := by decide
theorem witness_StepRunsTheDecodedCommand : ready.outFull = false ∧ ready.emitting = [] ∧
    decode (ready.decoder ++ ready.inBuf) = .command .encTpta [] := by decide
theorem witness_PositionAdvancesByCommandLength : ready.Inv ∧ ready.outFull = false ∧ ready.emitting = [] ∧
    decode ready.commandBytes = .command .encTpta [] ∧ ∃ t, step ready = .next t :=
  ⟨ready_inv, rfl, rfl, by decide, _, rfl⟩
theorem witness_IncompleteCommandHoldsTheCore :
    ({ State.reset with inBuf := [0xC0, 0xC1] } : State).outFull = false ∧
    ({ State.reset with inBuf := [0xC0, 0xC1] } : State).emitting = [] ∧
    isComplete ({ State.reset with inBuf := [0xC0, 0xC1] } : State).commandBytes = false := by decide
theorem witness_FullBuffersHoldCoreAndHost :
    Config.outDepth ≤ ({ State.reset with outBuf := List.replicate Config.outDepth 0 } : State).outBuf.length ∧
    Config.inDepth ≤ ({ State.reset with inBuf := List.replicate Config.inDepth 0 } : State).inBuf.length := by simp
theorem witness_RecordBytesAreHandedOverInOrder :
    ({ State.reset with emitting := [0x04, 0x00] } : State).emitting = 0x04 :: [0x00] ∧
    ({ State.reset with emitting := [0x04, 0x00] } : State).outBuf.length < Config.outDepth :=
  ⟨rfl, outDepth_pos⟩
theorem witness_EmissionDrainsWhenThereIsRoom :
    ({ State.reset with emitting := [0x04] } : State).outBuf.length +
      ({ State.reset with emitting := [0x04] } : State).emitting.length ≤ Config.outDepth := outDepth_pos
theorem witness_RecordsAreSelfDelimiting : (hex "fc59").length < 2 ^ 32 := by decide +kernel
theorem witness_EveryStepKeepsTheInvariant : ready.Inv ∧ ∃ t, step ready = .next t := ⟨ready_inv, _, rfl⟩
theorem witness_HostMovesKeepTheInvariant :
    State.reset.Inv ∧ (∃ b t, State.reset.push b = some t) ∧
    ∃ b t, ({ State.reset with outBuf := [0x04] } : State).take = some (b, t) :=
  ⟨reset_inv, ⟨0x03, _, if_pos inDepth_pos⟩, 0x04, _, rfl⟩
theorem history_ready : History [0x03] [] ready := History.push .start (if_pos inDepth_pos)
theorem witness_PositionCountsConsumedBytes : ∃ p t s, History p t s ∧ p ≠ [] :=
  ⟨_, _, _, history_ready, by decide⟩
theorem witness_EveryHistoryIsTheSequentialReading : ∃ p t s, History p t s ∧ p ≠ [] ∧ s.emitting ≠ [] :=
  ⟨_, _, _, History.step history_ready rfl, by decide, by decide +kernel⟩
theorem witness_IdleCoreHasAnsweredEveryCommand : ∃ p t s, History p t s ∧ s.emitting = [] ∧ s.inBuf = [] :=
  ⟨_, _, _, .start, rfl, rfl⟩

end Sys2Proof.Tests
end

section
/-! SUPPORT. The rules of a register write followed by a register read, and what reset leaves (10_state R15, R22, R28). -/

namespace Sys2Proof.Machine

/-! ### The used bits of a register -/

@[simp] theorem usedMask_pi : usedMask 0#8 = 0xFFFF#16 := rfl
@[simp] theorem usedMask_pty : usedMask 1#8 = 0x00FF#16 := rfl
@[simp] theorem usedMask_tpta : usedMask 2#8 = 0x0003#16 := rfl
@[simp] theorem usedMask_ms : usedMask 3#8 = 0x0001#16 := rfl
@[simp] theorem usedMask_di : usedMask 4#8 = 0x000F#16 := rfl
@[simp] theorem usedMask_mode : usedMask 5#8 = 0x0001#16 := rfl

/-- Storing a field in `n` bits and reading it back zero-extended masks it to its low `n` bits. -/
theorem setWidth_setWidth_eq_and_mask (v : Half) (n : Nat) :
    (v.setWidth n).setWidth 16 = v &&& BitVec.ofNat 16 (2 ^ n - 1) := by
  apply BitVec.eq_of_getLsbD_eq
  intro i hi
  simp only [BitVec.getLsbD_setWidth, BitVec.getLsbD_and, BitVec.getLsbD_ofNat, Nat.testBit_two_pow_sub_one, hi,
    decide_true, Bool.true_and, Bool.and_comm]

/-! ### A read after a write -/

/-- A write at an implemented address stores something. -/
theorem RegFile.exists_write {a : Byte} (h : a.toNat < 6) (r : RegFile) (v : Half) :
    ∃ r', r.write a v = some r' := by
  rcases regAddr_cases a with rfl | rfl | rfl | rfl | rfl | rfl | hres
  case inr.inr.inr.inr.inr.inr => omega
  all_goals exact ⟨_, rfl⟩

/-- A register written reads as the used bits of the value, zero elsewhere (R22). -/
theorem RegFile.read_of_write {r r' : RegFile} {a : Byte} {v : Half} (hw : r.write a v = some r') :
    r'.read a = some (v &&& usedMask a) := by
  rcases regAddr_cases a with rfl | rfl | rfl | rfl | rfl | rfl | hres
  case inr.inr.inr.inr.inr.inr => simp [RegFile.write_reserved r v hres] at hw
  case inl =>
    cases hw
    simpa using setWidth_setWidth_eq_and_mask v 16
  all_goals
    cases hw
    simp [setWidth_setWidth_eq_and_mask]

/-- A write leaves every other address reading as before (R84). -/
theorem RegFile.read_of_write_of_ne {r r' : RegFile} {a other : Byte} {v : Half}
    (hw : r.write a v = some r') (hne : other ≠ a) : r'.read other = r.read other := by
  rcases regAddr_cases other with rfl | rfl | rfl | rfl | rfl | rfl | hother
  case inr.inr.inr.inr.inr.inr => rw [r'.read_reserved hother, r.read_reserved hother]
  all_goals
    rcases regAddr_cases a with rfl | rfl | rfl | rfl | rfl | rfl | hres
    case inr.inr.inr.inr.inr.inr => simp [RegFile.write_reserved r v hres] at hw
    all_goals
      cases hw
      simp at hne ⊢

/-! ### The two register commands -/

/-- WRREG at an address that takes the write answers OK and installs the register file written (R84). -/
theorem exec_wrreg_of_write {s : State} {a : Byte} {v : Half} {r : RegFile} (hw : s.regs.write a v = some r) :
    exec (.wrreg a v) s = .next ((s.setRegs r).enqueue (record .ok [])) := by
  simp [exec, execWrreg, hw]

/-- RDREG at an address that can be read answers OK and the value, big-endian (R85). -/
theorem exec_rdreg_of_read {s : State} {a : Byte} {v : Half} (hr : s.regs.read a = some v) :
    exec (.rdreg a) s = .next (s.enqueue (record .ok (be16 v))) := by
  simp [exec, execRdreg, hr]

/-- Settles O21: the state with the written register file is the one both commands answer from, and a read of it is decided
by whether the address is the one written. -/
theorem reservedBitsAreDroppedAndReadAsZero : Obligations.ReservedBitsAreDroppedAndReadAsZero := by
  intro addr value s haddr
  obtain ⟨r, hw⟩ := RegFile.exists_write haddr s.regs value
  have hread : (s.setRegs r).regs.read addr = some (value &&& usedMask addr) := RegFile.read_of_write hw
  exact ⟨s.setRegs r, exec_wrreg_of_write hw, exec_rdreg_of_read hread,
    fun _ hne => RegFile.read_of_write_of_ne hw hne⟩

/-! ### Reset -/

/-- Reset leaves the reset state, whatever it is applied in (R97). -/
@[simp] theorem State.applyReset_eq (s : State) : s.applyReset = State.reset := rfl

/-- A pushed byte is the last of the command bytes at hand. -/
theorem State.commandBytes_of_push {s t : State} {b : Byte} (h : s.push b = some t) :
    t.commandBytes = s.commandBytes ++ [b] := by
  obtain ⟨-, rfl⟩ := State.push_some h
  simp [State.commandBytes]

/-- After reset no command byte is at hand. -/
@[simp] theorem State.commandBytes_reset : State.reset.commandBytes = [] := rfl

/-- Settles O1: reset is the reset state field by field, and the byte pushed next has no command byte before it. -/
theorem resetLeavesTheResetState : Obligations.ResetLeavesTheResetState := by
  intro s
  rw [State.applyReset_eq]
  refine ⟨rfl, rfl, rfl, rfl, rfl, rfl, rfl, rfl, rfl, rfl, fun b t hpush => ?_⟩
  simpa using State.commandBytes_of_push hpush

end Sys2Proof.Machine
end

section
/-! SUPPORT. What a command answers and leaves in the registers is a function of the registers and its operands alone: the
command run on a core just reset but for its registers shows it (20_memory R36, R40). -/

namespace Sys2Proof.Machine

/-- A command executed in any state answers what it answers run alone with that state's registers, leaves the registers it
leaves there, and changes nothing else. Only the AF commands and the register accesses branch, and what they branch on is
an operand or a register. -/
theorem exec_eq_runAlone (i : Instr) (s : State) :
    exec i s = .next ((s.setRegs (runAlone i s.regs).2).enqueue (runAlone i s.regs).1) := by
  cases i with
  | encPi | encPs | encTpta | encDi | encMs | encPty | encRt | encClock => rfl
  | group | frame | crc16 | stuff | illegal => rfl
  | afmap freq =>
    simp only [runAlone, exec, execAfmap]
    cases encodeAf freq <;> rfl
  | encAf freqs =>
    simp only [runAlone, exec, execEncAf]
    cases buildAfPayload freqs <;> rfl
  | afpayload freqs =>
    simp only [runAlone, exec, execAfpayload]
    cases buildAfPayload freqs <;> rfl
  | wrreg addr value =>
    simp only [runAlone, exec, execWrreg, State.setRegs_regs]
    cases s.regs.write addr value <;> rfl
  | rdreg addr =>
    simp only [runAlone, exec, execRdreg, State.setRegs_regs]
    cases s.regs.read addr <;> rfl

/-- Settles O46: both states answer what the command answers run alone with the registers they share. -/
theorem answersDependOnRegistersAndOperandsOnly : Obligations.AnswersDependOnRegistersAndOperandsOnly := by
  intro i s s' hregs
  refine ⟨(runAlone i s.regs).1, (runAlone i s.regs).2, exec_eq_runAlone i s, ?_⟩
  rw [hregs]
  exact exec_eq_runAlone i s'

end Sys2Proof.Machine
end

section
/-! SUPPORT. How long what a command answers can be: a bound for each function of the codec, and from them the bound of the
one record each command appends (30_encoding R48, R49). -/

namespace Sys2Proof.Machine

/-! ### The lengths of what the codec builds -/

/-- Stuffing at most doubles a sequence (R55). -/
theorem byteStuff_length_le (s : List Byte) : (byteStuff s).length ≤ 2 * s.length := by
  induction s with
  | nil => simp
  | cons b s ih =>
    cases hb : isDelimiter b with
    | false => simp only [byteStuff_cons_plain hb, List.length_cons]; omega
    | true => simp only [byteStuff_cons_delimiter hb, List.length_cons]; omega

/-- Stuffing doubles a sequence of delimiter values (R55). -/
theorem byteStuff_length_of_delimiters {s : List Byte} (h : ∀ b ∈ s, isDelimiter b = true) :
    (byteStuff s).length = 2 * s.length := by
  induction s with
  | nil => simp
  | cons b s ih =>
    obtain ⟨hb, hs⟩ := List.forall_mem_cons.mp h
    simp only [byteStuff_cons_delimiter hb, List.length_cons, ih hs]
    omega

/-- A frame is two delimiters around at most twice the header, the message and the CRC (R49, R57). -/
theorem buildFrame_length_le (m : List Byte) : (buildFrame m).length ≤ 1 + 2 * (4 + m.length + 2) + 1 := by
  have hstuff := byteStuff_length_le (frameBody m)
  simp only [frameBody_length] at hstuff
  simp only [buildFrame, List.length_append, List.length_singleton]
  omega

/-- The group builder puts three bytes before its data (R53). -/
@[simp] theorem buildGroup_length (mec : Half) (data : List Byte) :
    (buildGroup mec data).length = 3 + data.length := by
  unfold buildGroup
  split <;> simp <;> omega

/-- The text former gives exactly the field's width (R65). -/
@[simp] theorem padTrunc_length (s : List Byte) (w : Nat) : (padTrunc s w).length = w := by
  simp [padTrunc]

/-- The clock message is 11 bytes with the year and 9 without it (R74). -/
theorem clockMessage_length (yearFirst : Bool) (year : Half) (month day hour minute second : Byte) :
    (clockMessage yearFirst year month day hour minute second).length = if yearFirst then 11 else 9 := by
  cases yearFirst <;> rfl

/-- A payload of the selector is 7, 9 or 17 bytes long, by its layout (R79). -/
theorem selectAf_length {codes bytes : List Byte} (h : selectAf codes = .payload bytes) :
    bytes.length = 7 ∨ bytes.length = 9 ∨ bytes.length = 17 := by
  unfold selectAf at h
  split at h
  case h_1 => cases h
  case h_2 hn => cases h; simp [hn]
  case h_3 hn => cases h; simp [hn]
  case h_4 hn => cases h; simp [hn]
  case h_5 =>
    split at h
    case isTrue hn => cases h; simp [hn]
    case isFalse => cases h

/-! ### One record of bounded length -/

/-- The outcome appends one record, of at most the longest result, to the response stream of `s`, and changes nothing else
but the registers (R48, R49). -/
def AnswersOneRecord (s : State) (o : Result) : Prop :=
  ∃ (r : RegFile) (st : Status) (result : List Byte),
    o = .next ((s.setRegs r).enqueue (record st result)) ∧ result.length ≤ maxResult

theorem respond_answersOneRecord (st : Status) {result : List Byte} (s : State) (h : result.length ≤ maxResult) :
    AnswersOneRecord s (respond st result s) :=
  ⟨s.regs, st, result, rfl, h⟩

theorem raise_answersOneRecord (st : Status) (s : State) : AnswersOneRecord s (raise st s) :=
  respond_answersOneRecord st s (Nat.zero_le _)

/-- The frame of a message no longer than a count field allows has the longest result as its bound (R49). -/
theorem buildFrame_length_le_maxResult {m : List Byte} (h : m.length ≤ 65535) :
    (buildFrame m).length ≤ maxResult := by
  have hframe := buildFrame_length_le m
  unfold maxResult
  omega

theorem respondGroup_answersOneRecord (mec : Half) {payload : List Byte} (s : State) (h : payload.length ≤ 66) :
    AnswersOneRecord s (respondGroup mec payload s) :=
  respond_answersOneRecord .ok s (buildFrame_length_le_maxResult (by rw [buildGroup_length]; omega))

theorem execEncClock_answersOneRecord (year : Half) (month day hour minute second : Byte) (s : State) :
    AnswersOneRecord s (execEncClock year month day hour minute second s) := by
  refine respond_answersOneRecord .ok s (buildFrame_length_le_maxResult ?_)
  rw [clockMessage_length]
  split <;> omega

theorem execAfmap_answersOneRecord (freq : Half) (s : State) : AnswersOneRecord s (execAfmap freq s) := by
  unfold execAfmap
  split
  · exact raise_answersOneRecord .errInvalidFreq s
  · exact respond_answersOneRecord .ok s (by simp [maxResult])

theorem execAfpayload_answersOneRecord (freqs : List Half) (s : State) :
    AnswersOneRecord s (execAfpayload freqs s) := by
  unfold execAfpayload
  split
  · exact respond_answersOneRecord .empty s (Nat.zero_le _)
  · exact raise_answersOneRecord .errAfLength s
  next hpayload =>
    have hlen := selectAf_length hpayload
    exact respond_answersOneRecord .ok s (by unfold maxResult; omega)

theorem execEncAf_answersOneRecord (freqs : List Half) (s : State) : AnswersOneRecord s (execEncAf freqs s) := by
  unfold execEncAf
  split
  · exact respond_answersOneRecord .empty s (Nat.zero_le _)
  · exact raise_answersOneRecord .errAfLength s
  next hpayload =>
    have hlen := selectAf_length hpayload
    exact respondGroup_answersOneRecord 0x13 s (by omega)

theorem execWrreg_answersOneRecord (addr : Byte) (value : Half) (s : State) :
    AnswersOneRecord s (execWrreg addr value s) := by
  unfold execWrreg
  split
  next r _ => exact ⟨r, .ok, [], rfl, Nat.zero_le _⟩
  · exact raise_answersOneRecord .errBadRegister s

theorem execRdreg_answersOneRecord (addr : Byte) (s : State) : AnswersOneRecord s (execRdreg addr s) := by
  unfold execRdreg
  split
  · exact respond_answersOneRecord .ok s (by simp [maxResult])
  · exact raise_answersOneRecord .errBadRegister s

/-- Every well-formed command answers one record within the bound. Only GROUP, FRAME and STUFF answer as many bytes as their
operand gives, so only there the count field's width matters (R42, R49). -/
theorem exec_answersOneRecord {i : Instr} (hwf : i.wellFormed = true) (s : State) : AnswersOneRecord s (exec i s) := by
  cases i with
  | encPi => exact respondGroup_answersOneRecord 0x01 s (by simp)
  | encTpta => exact respondGroup_answersOneRecord 0x03 s (by simp)
  | encDi => exact respondGroup_answersOneRecord 0x04 s (by simp)
  | encMs => exact respondGroup_answersOneRecord 0x05 s (by simp)
  | encPty => exact respondGroup_answersOneRecord 0x07 s (by simp)
  | encPs text => exact respondGroup_answersOneRecord 0x02 s (by simp [psWidth])
  | encRt text => exact respondGroup_answersOneRecord 0x0A s (by simp [rtSubHeader, rtWidth])
  | encClock year month day hour minute second => exact execEncClock_answersOneRecord year month day hour minute second s
  | encAf freqs => exact execEncAf_answersOneRecord freqs s
  | group mec data =>
    have hlen : data.length ≤ 65535 := of_decide_eq_true hwf
    exact respond_answersOneRecord .ok s (by rw [buildGroup_length]; unfold maxResult; omega)
  | frame data =>
    have hlen : data.length ≤ 65535 := of_decide_eq_true hwf
    exact respond_answersOneRecord .ok s (buildFrame_length_le_maxResult hlen)
  | crc16 data => exact respond_answersOneRecord .ok s (by simp [maxResult])
  | stuff data =>
    have hlen : data.length ≤ 65535 := of_decide_eq_true hwf
    have hstuff := byteStuff_length_le data
    exact respond_answersOneRecord .ok s (by unfold maxResult; omega)
  | afmap freq => exact execAfmap_answersOneRecord freq s
  | afpayload freqs => exact execAfpayload_answersOneRecord freqs s
  | wrreg addr value => exact execWrreg_answersOneRecord addr value s
  | rdreg addr => exact execRdreg_answersOneRecord addr s
  | illegal op => exact raise_answersOneRecord .errIllegalOpcode s

/-- Settles O30: every command answers one record within the bound, and STUFF of delimiter values alone doubles them. -/
theorem resultsFitTheLengthField : Obligations.ResultsFitTheLengthField := by
  refine ⟨fun i s hwf => ?_, fun data s hlen hdelim => ⟨byteStuff data, rfl, ?_⟩⟩
  · obtain ⟨r, st, result, hexec, hle⟩ := exec_answersOneRecord hwf s
    unfold maxResult at hle
    exact ⟨_, st, result, hexec, by simp, hle, by omega⟩
  · rw [byteStuff_length_of_delimiters fun b hb => (isDelimiter_iff b).mpr (hdelim b hb), hlen]

end Sys2Proof.Machine
end

section
/-! SUPPORT. The byte-stuffer: the length of its output, and which bytes of the output it inserted (41_group_frame R55,
R56). -/

namespace Sys2Proof.Machine

/-! ### ByteStuff -/

/-- Stuffing adds one byte for each delimiter value (R55). -/
theorem byteStuff_length (s : List Byte) : (byteStuff s).length = s.length + s.countP isDelimiter := by
  induction s with
  | nil => rfl
  | cons b s ih =>
    cases hb : isDelimiter b with
    | false =>
      simp only [byteStuff_cons_plain hb, List.length_cons, List.countP_cons_of_neg (Bool.eq_false_iff.mp hb), ih]
      omega
    | true =>
      simp only [byteStuff_cons_delimiter hb, List.length_cons, List.countP_cons_of_pos hb, ih]
      omega

/-- The delimiter values occur in the output as in the input, the inserted byte being none (R56). -/
theorem byteStuff_filter_isDelimiter (s : List Byte) :
    (byteStuff s).filter isDelimiter = s.filter isDelimiter := by
  have hinserted : isDelimiter 0xFD#8 = false := rfl
  induction s with
  | nil => rfl
  | cons b s ih =>
    cases hb : isDelimiter b with
    | false => simp [byteStuff_cons_plain hb, hb, ih]
    | true => simp [byteStuff_cons_delimiter hb, hb, ih, hinserted]

/-- Settles O26: one byte by whether it is a delimiter, and the length by induction. -/
theorem byteStuffMarksEveryDelimiter : Obligations.ByteStuffMarksEveryDelimiter := by
  refine ⟨byteStuff_nil, fun b s => ?_, byteStuff_length⟩
  by_cases hb : b = 0xFE ∨ b = 0xFF
  · rw [byteStuff_cons_delimiter ((isDelimiter_iff b).mpr hb), if_pos hb]; rfl
  · rw [byteStuff_cons_plain (Bool.eq_false_iff.mpr (mt (isDelimiter_iff b).mp hb)), if_neg hb]; rfl

/-! ### The marked output -/

@[simp] theorem markedStuff_nil : markedStuff [] = [] := rfl

/-- A byte that is no delimiter is one copied byte. -/
theorem markedStuff_cons_plain {b : Byte} (h : isDelimiter b = false) (s : List Byte) :
    markedStuff (b :: s) = (b, false) :: markedStuff s := by simp [markedStuff, h]

/-- A delimiter is a copied byte and an inserted one. -/
theorem markedStuff_cons_delimiter {b : Byte} (h : isDelimiter b = true) (s : List Byte) :
    markedStuff (b :: s) = (b, false) :: (0xFD, true) :: markedStuff s := by simp [markedStuff, h]

/-- Without its marks the marked output is the stuffed one. -/
theorem markedStuff_map_fst (s : List Byte) : (markedStuff s).map Prod.fst = byteStuff s := by
  induction s with
  | nil => rfl
  | cons b s ih =>
    cases hb : isDelimiter b with
    | false => simp [markedStuff_cons_plain hb, byteStuff_cons_plain hb, ih]
    | true => simp [markedStuff_cons_delimiter hb, byteStuff_cons_delimiter hb, ih]

/-- The copied bytes are the input. -/
theorem markedStuff_copied (s : List Byte) : ((markedStuff s).filter (fun p => !p.2)).map Prod.fst = s := by
  induction s with
  | nil => rfl
  | cons b s ih =>
    cases hb : isDelimiter b with
    | false => simp [markedStuff_cons_plain hb, ih]
    | true => simp [markedStuff_cons_delimiter hb, ih]

/-- Every inserted byte is 0xFD. -/
theorem markedStuff_inserted {s : List Byte} {b : Byte} (h : (b, true) ∈ markedStuff s) : b = 0xFD := by
  induction s with
  | nil => simp at h
  | cons c s ih =>
    cases hc : isDelimiter c with
    | false =>
      rw [markedStuff_cons_plain hc] at h
      exact ih (by simpa using h)
    | true =>
      rw [markedStuff_cons_delimiter hc] at h
      have h : b = 0xFD ∨ (b, true) ∈ markedStuff s := by simpa using h
      exact h.elim id ih

/-- The first byte is a copied one. -/
theorem markedStuff_first {s : List Byte} {b : Byte} {m : Bool} (h : (markedStuff s)[0]? = some (b, m)) :
    m = false := by
  cases s with
  | nil => simp at h
  | cons c s =>
    cases hc : isDelimiter c with
    | false =>
      obtain ⟨-, hm⟩ : c = b ∧ false = m := by simpa [markedStuff_cons_plain hc] using h
      exact hm.symm
    | true =>
      obtain ⟨-, hm⟩ : c = b ∧ false = m := by simpa [markedStuff_cons_delimiter hc] using h
      exact hm.symm

/-- Of two neighbours in marked output, the second is inserted exactly if the first is a delimiter value. -/
def InsertedIffAfterDelimiter (p q : Byte × Bool) : Prop := q.2 = isDelimiter p.1

/-- Marked output after a byte that is no delimiter is inserted exactly after its delimiters. -/
theorem markedStuff_isChain_cons (s : List Byte) {p : Byte × Bool} (hp : isDelimiter p.1 = false) :
    (p :: markedStuff s).IsChain InsertedIffAfterDelimiter := by
  induction s generalizing p with
  | nil => exact .singleton p
  | cons b s ih =>
    cases hb : isDelimiter b with
    | false =>
      rw [markedStuff_cons_plain hb]
      exact .cons_cons hp.symm (ih hb)
    | true =>
      rw [markedStuff_cons_delimiter hb]
      exact .cons_cons hp.symm (.cons_cons hb.symm (ih rfl))

/-- A byte that is not the first is inserted exactly where a delimiter value stands before it. -/
theorem markedStuff_inserted_iff {s : List Byte} {k : Nat} {b : Byte} {m : Bool}
    (h : (markedStuff s)[k + 1]? = some (b, m)) :
    m = true ↔ ∃ d, (markedStuff s)[k]? = some d ∧ isDelimiter d.1 = true := by
  have hchain : (markedStuff s).IsChain InsertedIffAfterDelimiter :=
    (markedStuff_isChain_cons s (p := (0, false)) rfl).tail
  obtain ⟨hk, hget⟩ := List.getElem?_eq_some_iff.mp h
  have hmark : m = isDelimiter ((markedStuff s)[k]).1 := by
    simpa [InsertedIffAfterDelimiter, hget] using List.isChain_iff_getElem.mp hchain k hk
  simp [hmark, List.getElem?_eq_getElem (Nat.lt_of_succ_lt hk)]

/-- A delimiter value in the output is copied, and an inserted byte follows it. -/
theorem markedStuff_delimiter {s : List Byte} {k : Nat} {b : Byte} {m : Bool}
    (h : (markedStuff s)[k]? = some (b, m)) (hb : isDelimiter b = true) :
    m = false ∧ (markedStuff s)[k + 1]? = some (0xFD, true) := by
  induction s generalizing k with
  | nil => simp at h
  | cons c s ih =>
    cases hc : isDelimiter c with
    | false =>
      rw [markedStuff_cons_plain hc] at h ⊢
      match k with
      | 0 =>
        obtain ⟨rfl, -⟩ : c = b ∧ false = m := by simpa using h
        simp [hc] at hb
      | k + 1 => exact ih h
    | true =>
      rw [markedStuff_cons_delimiter hc] at h ⊢
      match k with
      | 0 =>
        obtain ⟨-, rfl⟩ : c = b ∧ false = m := by simpa using h
        exact ⟨rfl, rfl⟩
      | 1 =>
        obtain ⟨rfl, -⟩ : 0xFD#8 = b ∧ true = m := by simpa using h
        cases hb
      | k + 2 => exact ih h

/-- Settles O27: the marks follow from the output being inserted exactly after its delimiters, an inserted byte being none. -/
theorem stuffedOutputMarksExactlyTheInsertedBytes : Obligations.StuffedOutputMarksExactlyTheInsertedBytes := by
  refine ⟨fun s => ?_, rfl, rfl⟩
  exact ⟨markedStuff_map_fst s, markedStuff_copied s, fun _ => markedStuff_inserted,
    fun _ _ _ => markedStuff_delimiter, fun _ _ _ => markedStuff_inserted_iff, fun _ _ => markedStuff_first,
    byteStuff_filter_isDelimiter s⟩

end Sys2Proof.Machine
end

section
/-! SUPPORT. The group builder, the frame builder and the four commands that expose the codec (41_group_frame R53-R63). -/

namespace Sys2Proof.Machine

/-! ### BuildGroup -/

/-- A MEC above 0xFF takes two header bytes (R53). -/
theorem buildGroup_twoByteMec {mec : Half} (h : 0xFF < mec.toNat) (data : List Byte) :
    buildGroup mec data = [hi8 mec, lo8 mec, 0x00] ++ data := if_pos h

/-- A MEC up to 0xFF takes one header byte (R53). -/
theorem buildGroup_oneByteMec {mec : Half} (h : ¬ 0xFF < mec.toNat) (data : List Byte) :
    buildGroup mec data = [lo8 mec, 0x00, 0x00] ++ data := if_neg h

/-- The message is the header the MEC selects, then the data (R53). -/
theorem buildGroup_eq_header_append (mec : Half) (data : List Byte) :
    buildGroup mec data = (if 0xFF < mec.toNat then [hi8 mec, lo8 mec, 0x00] else [lo8 mec, 0x00, 0x00]) ++ data := by
  by_cases h : 0xFF < mec.toNat
  · rw [buildGroup_twoByteMec h, if_pos h]
  · rw [buildGroup_oneByteMec h, if_neg h]

/-- Past the three header bytes stands the data (R53). -/
theorem buildGroup_drop_header (mec : Half) (data : List Byte) : (buildGroup mec data).drop 3 = data := by
  by_cases h : 0xFF < mec.toNat
  · rw [buildGroup_twoByteMec h]; rfl
  · rw [buildGroup_oneByteMec h]; rfl

/-- Settles O23: the header stands before the data whatever the MEC, and MEC 0x0100 gives the bytes of MEC 0x0001. -/
theorem messageHeaderIsAlwaysThreeBytes : Obligations.MessageHeaderIsAlwaysThreeBytes :=
  ⟨fun mec data => ⟨rfl, buildGroup_length mec data, buildGroup_drop_header mec data⟩,
    fun _ => rfl, fun _ => rfl, fun _ => rfl⟩

/-! ### BuildFrame -/

/-- The CRC covers three zero bytes, the message length mod 256, and the message (R57). -/
theorem framePayload_eq (m : List Byte) :
    framePayload m = [0x00, 0x00, 0x00, BitVec.ofNat 8 (m.length % 256)] ++ m := by
  have hlen : BitVec.ofNat 8 (m.length % 256) = BitVec.ofNat 8 m.length := BitVec.eq_of_toNat_eq (by simp)
  rw [hlen]; rfl

/-- The three zero bytes of the header stand unstuffed before what stuffing may lengthen (R57). -/
theorem buildFrame_eq (m : List Byte) :
    buildFrame m = [0xFE, 0x00, 0x00, 0x00] ++
      byteStuff ([BitVec.ofNat 8 (m.length % 256)] ++ m ++ be16 (crc16Of (framePayload m))) ++ [0xFF] := by
  have hbody : frameBody m = [0x00, 0x00, 0x00] ++
      ([BitVec.ofNat 8 (m.length % 256)] ++ m ++ be16 (crc16Of (framePayload m))) := by
    simp [frameBody, framePayload_eq]
  rw [buildFrame, hbody, byteStuff_append]
  rfl

/-- Settles O28: for the empty message the length byte is zero, which stuffing copies. -/
theorem frameHasTheWireFormat : Obligations.FrameHasTheWireFormat := by
  refine ⟨fun m => ?_, rfl⟩
  have hframe := buildFrame_eq m
  rw [framePayload_eq] at hframe
  exact hframe

/-- A frame is its two delimiters, the header, the message and the CRC, and a byte for each delimiter value among them
(R59). -/
theorem buildFrame_length (m : List Byte) :
    (buildFrame m).length = 1 + (6 + m.length + (frameBody m).countP isDelimiter) + 1 := by
  simp only [buildFrame, List.length_append, List.length_singleton, byteStuff_length, frameBody_length]

/-- The length byte is a delimiter value exactly for lengths of 0xFE and 0xFF mod 256. -/
theorem isDelimiter_lengthByte_iff (n : Nat) :
    isDelimiter (BitVec.ofNat 8 n) = true ↔ n % 256 = 0xFE ∨ n % 256 = 0xFF := by
  simp [isDelimiter_iff, ← BitVec.toNat_inj]

/-- Of the header only the length byte can be a delimiter value. -/
theorem countP_isDelimiter_lengthHeader (m : List Byte) : (lengthHeader m).countP isDelimiter =
    if m.length % 256 = 0xFE ∨ m.length % 256 = 0xFF then 1 else 0 := by
  simp [lengthHeader, List.countP_cons, isDelimiter_lengthByte_iff]

/-- Settles O29: the stuffed bytes of a frame are counted in the length byte, the message and the CRC. -/
theorem frameLengthFormula : Obligations.FrameLengthFormula := by
  intro m crc k c h
  have hcrc : crc16Of (framePayload m) = crc := by rw [framePayload_eq]
  have hcount : (frameBody m).countP isDelimiter = h + k + c := by
    rw [frameBody, hcrc, framePayload, List.countP_append, List.countP_append, countP_isDelimiter_lengthHeader]
    rfl
  rw [buildFrame_length, hcount]
  omega

/-! ### The commands -/

/-- Settles O11: GROUP responds with what BuildGroup gives, the header and the data. -/
theorem groupAnswersTheMessage : Obligations.GroupAnswersTheMessage :=
  fun mec data s => ⟨rfl, respond_eq .ok (buildGroup mec data) s, buildGroup_eq_header_append mec data⟩

/-- The CRC of the source vector's header and message (R54). -/
theorem crc16Of_sourceVector : crc16Of [0x00, 0x00, 0x00, 0x04, 0x03, 0x00, 0x00, 0x02] = 0xFC59 := by decide

/-- Settles O12: FRAME responds with what BuildFrame gives; the vector's frame follows from its CRC. -/
theorem frameAnswersTheFrameOfItsMessage : Obligations.FrameAnswersTheFrameOfItsMessage := by
  refine ⟨fun data s => ⟨rfl, respond_eq .ok (buildFrame data) s⟩, ?_⟩
  have hcrc : crc16Of (framePayload [0x03, 0x00, 0x00, 0x02]) = 0xFC59 := crc16Of_sourceVector
  rw [buildFrame_eq, hcrc]
  rfl

/-- Settles O13: CRC16 responds with the CRC big-endian. -/
theorem crc16AnswersTheCrcBigEndian : Obligations.Crc16AnswersTheCrcBigEndian :=
  ⟨fun data s => ⟨rfl, respond_eq .ok (be16 (crc16Of data)) s⟩, rfl, crc16Of_sourceVector⟩

/-- Settles O14: STUFF responds with what ByteStuff gives. -/
theorem stuffAnswersTheStuffedBytes : Obligations.StuffAnswersTheStuffedBytes :=
  ⟨fun data s => ⟨rfl, respond_eq .ok (byteStuff data) s⟩, rfl, rfl⟩

end Sys2Proof.Machine
end

section
/-! SUPPORT. The text former, the payload bytes, the clock message and the eight field encoders
(42_field_encoders R64-R74). -/

namespace Sys2Proof.Machine

/-! ### PadTrunc -/

/-- Within the field's width stands the text's byte, or the pad byte past the text's end (R65). -/
theorem padTrunc_getElem? (s : List Byte) {w k : Nat} (hk : k < w) :
    (padTrunc s w)[k]? = some (s.getD k padByte) := by
  rw [padTrunc, List.getD_eq_getElem?_getD]
  by_cases hs : k < s.length
  · have htext : k < (s.take w).length := by simp; omega
    rw [List.getElem?_append_left htext, List.getElem?_take_of_lt hk]
    simp [hs]
  · have hpast : (s.take w).length ≤ k := by simp; omega
    have hpad : k - (s.take w).length < w - (s.take w).length := by omega
    rw [List.getElem?_append_right hpast, List.getElem?_replicate_of_lt hpad]
    simp [hs]

/-- Settles O31: a byte of the field is the text's or, past the text's end, the pad byte. -/
theorem padTruncGivesExactlyItsWidth : Obligations.PadTruncGivesExactlyItsWidth :=
  fun s w => ⟨padTrunc_length s w, fun _ hk => padTrunc_getElem? s hk⟩

/-! ### The encoders of one register -/

/-- The music/speech payload byte is 1 for music and 0 otherwise (R70). -/
theorem RegFile.msByte_eq (r : RegFile) : r.msByte = if r.ms = 1 then 0x01 else 0x00 := by
  have hms : ∀ m : BitVec 1, (m.setWidth 8 : Byte) = if m = 1 then 0x01 else 0x00 := by decide
  exact hms r.ms

/-- The decoder-information payload byte has the nibble's value, so its upper nibble is zero (R71). -/
theorem RegFile.diByte_toNat (r : RegFile) : r.diByte.toNat = r.di.toNat :=
  BitVec.toNat_setWidth_of_le (by decide)

/-- Settles O3: ENC_TPTA responds with the group of its payload byte; the vector is that group's frame, evaluated. -/
theorem encTptaAnswersTheTpTaFrame : Obligations.EncTptaAnswersTheTpTaFrame :=
  ⟨rfl, fun s => ⟨respondGroup_eq 0x03 [s.regs.tptaByte] s, fun htpta => by rw [htpta]; decide⟩⟩

/-- Settles O4: ENC_PI responds with the group of the two bytes of PI. -/
theorem encPiAnswersThePiFrame : Obligations.EncPiAnswersThePiFrame :=
  ⟨rfl, fun s => ⟨respondGroup_eq 0x01 (be16 s.regs.pi) s, fun hpi => by rw [hpi]; decide⟩⟩

/-- Settles O5: ENC_PTY responds with the group of the stored byte, which nothing checks. -/
theorem encPtyAnswersThePtyFrame : Obligations.EncPtyAnswersThePtyFrame :=
  ⟨rfl, fun s => ⟨respondGroup_eq 0x07 [s.regs.pty] s, fun hpty => by rw [hpty]; decide⟩⟩

/-- Settles O6: ENC_MS responds with the group of the payload byte, which is 1 or 0 by `RegFile.msByte_eq`. -/
theorem encMsAnswersTheMusicSpeechFrame : Obligations.EncMsAnswersTheMusicSpeechFrame := by
  refine ⟨rfl, fun s => ⟨?_, fun hms => by rw [if_pos hms]; decide⟩⟩
  rw [← RegFile.msByte_eq]
  exact respondGroup_eq 0x05 [s.regs.msByte] s

/-- Settles O7: ENC_DI responds with the group of the payload byte, whose value is the nibble's. -/
theorem encDiAnswersTheDecoderInfoFrame : Obligations.EncDiAnswersTheDecoderInfoFrame :=
  ⟨rfl, fun s => ⟨respondGroup_eq 0x04 [s.regs.diByte] s, s.regs.diByte_toNat, fun hdi => by rw [hdi]; decide⟩⟩

/-! ### The text encoders -/

/-- Settles O8: the text former fixes the field at 8 bytes, and the header adds 3. -/
theorem encPsAnswersTheEightByteTextFrame : Obligations.EncPsAnswersTheEightByteTextFrame := by
  refine ⟨fun text s => ⟨rfl, respondGroup_eq 0x02 (padTrunc text psWidth) s, ?_⟩, by decide⟩
  rw [buildGroup_length, padTrunc_length]

/-- The RT message is the header, the sub-header and the text field: 69 bytes (R73). -/
theorem buildGroup_rt_length (text : List Byte) :
    (buildGroup 0x0A (rtSubHeader ++ padTrunc text rtWidth)).length = 69 := by
  rw [buildGroup_length, List.length_append, padTrunc_length]
  rfl

/-- The source's RT text, Hello (R73). -/
def rtVectorText : List Byte := [0x48, 0x65, 0x6c, 0x6c, 0x6f]

/-- Neither the header, the message nor the CRC of the Hello frame holds a delimiter value, so nothing is stuffed. -/
theorem rtVector_countP_isDelimiter :
    (frameBody (buildGroup 0x0A (rtSubHeader ++ padTrunc rtVectorText rtWidth))).countP isDelimiter = 0 := by
  decide +kernel

/-- The Hello frame is the two delimiters, the 4-byte length header, the 69-byte message and the 2-byte CRC (R73). -/
theorem buildFrame_rtVector_length :
    (buildFrame (buildGroup 0x0A (rtSubHeader ++ padTrunc rtVectorText rtWidth))).length = 77 := by
  rw [buildFrame_length, rtVector_countP_isDelimiter, buildGroup_rt_length]

/-- Settles O9: the message is 69 bytes for every text; the Hello frame has no stuffed byte. -/
theorem encRtAnswersTheSixtyFourByteTextFrame : Obligations.EncRtAnswersTheSixtyFourByteTextFrame :=
  ⟨fun text s =>
      ⟨rfl, respondGroup_eq 0x0A (rtSubHeader ++ padTrunc text rtWidth) s, buildGroup_rt_length text⟩,
    buildFrame_rtVector_length, rfl⟩

/-! ### The clock -/

/-- CLKVAR = 0 is dayFirst and CLKVAR = 1, the only other value of one bit, is yearFirst (R21, R74). -/
theorem clockMessage_of_mode (r : RegFile) (year : Half) (month day hour minute second : Byte) :
    clockMessage r.yearFirst year month day hour minute second =
      if r.mode = 0 then [0x0D, 0x19, 0x06, day, hour, minute, second, 0x00, 0x00]
      else [0x0D, 0x19, 0x06, BitVec.ofNat 8 (year.toNat % 100), month, day, hour, minute, second, 0x00, 0x00] := by
  obtain hmode | hmode := BitVec.eq_zero_or_eq_one r.mode
  · have hday : r.yearFirst = false := by rw [RegFile.yearFirst, hmode]; rfl
    rw [hday]
    exact (if_pos hmode).symm
  · have hyear : r.yearFirst = true := by rw [RegFile.yearFirst, hmode]; rfl
    have hne : r.mode ≠ 0 := by rw [hmode]; decide
    rw [hyear]
    exact (if_neg hne).symm

/-- Settles O10: ENC_CLOCK responds with the frame of the clock message in the layout MODE selects. -/
theorem encClockAnswersTheClockFrameOfItsVariant : Obligations.EncClockAnswersTheClockFrameOfItsVariant := by
  intro year month day hour minute second s
  refine ⟨rfl, ?_⟩
  rw [← clockMessage_of_mode]
  exact respond_eq .ok (buildFrame (clockMessage s.regs.yearFirst year month day hour minute second)) s

end Sys2Proof.Machine
end

section
/-! SUPPORT. The AF mapper, the AF list-length selector and the three commands over them (43_af R75-R83). -/

namespace Sys2Proof.Machine

/-! ### EncodeAF -/

/-- Outside the band 8760..10790 a frequency is rejected (R76). -/
theorem encodeAf_of_outside {f : Half} (h : f.toNat < 8760 ∨ 10790 < f.toNat) : encodeAf f = none := if_pos h

/-- Inside the band the code is in range, so the mapper's second test rejects nothing (R76). -/
theorem encodeAf_of_inside {f : Half} (h : ¬ (f.toNat < 8760 ∨ 10790 < f.toNat)) :
    encodeAf f = some (BitVec.ofNat 8 ((f.toNat - 8745) / 10)) := by
  have hcode : ¬ ((f.toNat - 8745) / 10 < 1 ∨ 204 < (f.toNat - 8745) / 10) := by omega
  rw [encodeAf, if_neg h]
  exact if_neg hcode

/-- The mapper rejects exactly outside its band (R76). -/
theorem encodeAf_eq_none_iff (f : Half) : encodeAf f = none ↔ f.toNat < 8760 ∨ 10790 < f.toNat := by
  refine ⟨fun h => ?_, encodeAf_of_outside⟩
  by_contra hin
  rw [encodeAf_of_inside hin] at h
  cases h

/-- A frequency with a code lies in the band, and the code's value is the quotient (R76). -/
theorem toNat_of_encodeAf {f : Half} {c : Byte} (h : encodeAf f = some c) :
    8760 ≤ f.toNat ∧ f.toNat ≤ 10790 ∧ c.toNat = (f.toNat - 8745) / 10 := by
  have hin : ¬ (f.toNat < 8760 ∨ 10790 < f.toNat) := fun hout => by simp [encodeAf_of_outside hout] at h
  rw [encodeAf_of_inside hin, Option.some_inj] at h
  subst h
  rw [BitVec.toNat_ofNat]
  omega

/-- Codes lie in 1..204 (R76). -/
theorem encodeAf_code_bounds {f : Half} {c : Byte} (h : encodeAf f = some c) : 1 ≤ c.toNat ∧ c.toNat ≤ 204 := by
  obtain ⟨hlo, hhi, hc⟩ := toNat_of_encodeAf h
  omega

/-- The frequency 8750 + 10c has the code c (R77). -/
theorem encodeAf_grid {c : Nat} (hlo : 1 ≤ c) (hhi : c ≤ 204) :
    encodeAf (BitVec.ofNat 16 (8750 + 10 * c)) = some (BitVec.ofNat 8 c) := by
  have hf : (BitVec.ofNat 16 (8750 + 10 * c)).toNat = 8750 + 10 * c := by rw [BitVec.toNat_ofNat]; omega
  have hcode : (8750 + 10 * c - 8745) / 10 = c := by omega
  rw [encodeAf_of_inside (by omega), hf, hcode]

/-- Settles O32: inside the band there is a code, and `toNat_of_encodeAf` says which. -/
theorem mapperRejectsExactlyOutsideItsBand : Obligations.MapperRejectsExactlyOutsideItsBand := by
  refine fun f => ⟨encodeAf_eq_none_iff f, fun hlo hhi => ?_⟩
  have hcode := encodeAf_of_inside (f := f) (by omega)
  obtain ⟨-, -, hc⟩ := toNat_of_encodeAf hcode
  exact ⟨_, hcode, hc, encodeAf_code_bounds hcode⟩

/-- Settles O33: adding 5 before the division is adding 1 after it when the remainder is 5 or more. -/
theorem mapperIsExactOnGridAndRoundsHalvesUp : Obligations.MapperIsExactOnGridAndRoundsHalvesUp := by
  refine ⟨fun c => encodeAf_grid, fun f hlo hhi => ?_, by decide, by decide⟩
  have hround : (f.toNat - 8745) / 10 =
      (f.toNat - 8750) / 10 + if 5 ≤ (f.toNat - 8750) % 10 then 1 else 0 := by split <;> omega
  rw [encodeAf_of_inside (by omega), hround]

/-! ### The look-up table -/

/-- The table's entry for a frequency in the band is the mapper's quotient: the entries' intervals do not overlap (R78). -/
theorem afTableLookup_of_inside {f : Half} (h : ¬ (f.toNat < 8760 ∨ 10790 < f.toNat)) :
    afTableLookup f = some (BitVec.ofNat 8 ((f.toNat - 8745) / 10)) := by
  rw [afTableLookup, if_neg h, Option.map_eq_some_iff]
  refine ⟨_, List.find?_range'_eq_some.mpr ⟨?_, ?_, fun c _ hc => ?_⟩, rfl⟩
  · simp only [Bool.and_eq_true, decide_eq_true_eq]
    omega
  · rw [List.mem_range'_1]
    omega
  · simp only [Bool.not_eq_true', Bool.and_eq_false_iff, decide_eq_false_iff_not]
    omega

/-- Settles O34: a code in range is the code of its grid frequency, and table and mapper agree on both sides of the band. -/
theorem mapperEqualsTheTableLookup : Obligations.MapperEqualsTheTableLookup := by
  refine ⟨fun c => ⟨fun ⟨_, hf⟩ => encodeAf_code_bounds hf, fun ⟨hlo, hhi⟩ => ?_⟩, fun f => ?_⟩
  · exact ⟨BitVec.ofNat 16 (8750 + 10 * c.toNat), by simpa using encodeAf_grid hlo hhi⟩
  · by_cases h : f.toNat < 8760 ∨ 10790 < f.toNat
    · rw [encodeAf_of_outside h, afTableLookup, if_pos h]
    · rw [encodeAf_of_inside h, afTableLookup_of_inside h]

/-! ### The selector -/

/-- Four to eleven codes take the long layout, padded to eleven (R79). -/
theorem selectAf_long {codes : List Byte} (hlo : 4 ≤ codes.length) (hhi : codes.length ≤ 11) :
    selectAf codes = .payload ([0x0F, 0x00, 0x00, 0xEB] ++ codes ++
      List.replicate (11 - codes.length) 0x00 ++ [0x00, 0xAC]) := by
  unfold selectAf
  split
  case h_5 => rw [if_pos hhi, zeroPad, ← List.append_assoc]; rfl
  all_goals omega

/-- More than eleven codes are too many (R79). -/
theorem selectAf_tooMany {codes : List Byte} (h : 11 < codes.length) : selectAf codes = .tooMany := by
  unfold selectAf
  split
  case h_5 => exact if_neg (by omega)
  all_goals omega

/-- Settles O35: up to three codes the selector evaluates; beyond them by `selectAf_long` and `selectAf_tooMany`. -/
theorem selectorLayoutsByListLength : Obligations.SelectorLayoutsByListLength := by
  intro fs codes
  have hbuild : buildAfPayload fs = selectAf codes := rfl
  rw [hbuild]
  refine ⟨fun h => ?_, ?_, ?_, ?_, selectAf_long, selectAf_tooMany⟩
  · rw [List.length_eq_zero_iff.mp h]; rfl
  · rintro c h; rw [h]; rfl
  · rintro c d h; rw [h]; rfl
  · rintro c d e h; rw [h]; rfl

/-- A payload is a header, the codes, zero bytes and a trailer, whose length the number of codes fixes, and no byte of the
header or the trailer is a delimiter value (R79, R80). -/
theorem selectAf_payload {codes bytes : List Byte} (h : selectAf codes = .payload bytes) :
    ∃ (header trailer : List Byte) (k : Nat),
      bytes = header ++ codes ++ List.replicate k 0x00 ++ trailer ∧
      (∀ b ∈ header ++ trailer, isDelimiter b = false) ∧
      bytes.length = if codes.length = 1 then 7 else if codes.length ≤ 3 then 9 else 17 := by
  match codes with
  | [] => cases h
  | [c] => cases h; exact ⟨[0x05, 0x00, 0x00, 0xE1], [0x00, 0x60], 0, rfl, by decide, rfl⟩
  | [c, d] => cases h; exact ⟨[0x07, 0x00, 0x00, 0xE2], [0x00, 0xD3], 1, rfl, by decide, rfl⟩
  | [c, d, e] => cases h; exact ⟨[0x07, 0x00, 0x00, 0xE3], [0x00, 0xEE], 0, rfl, by decide, rfl⟩
  | c :: d :: e :: g :: rest =>
    have hlo : 4 ≤ (c :: d :: e :: g :: rest).length := by simp
    generalize c :: d :: e :: g :: rest = codes at h hlo
    by_cases hhi : codes.length ≤ 11
    · rw [selectAf_long hlo hhi] at h
      cases h
      refine ⟨[0x0F, 0x00, 0x00, 0xEB], [0x00, 0xAC], _, rfl, by decide, ?_⟩
      rw [if_neg (by omega), if_neg (by omega)]
      simp only [List.length_append, List.length_cons, List.length_nil, List.length_replicate]
      omega
    · rw [selectAf_tooMany (by omega)] at h
      cases h

/-- No code is a delimiter value, being at most 204 (R80). -/
theorem isDelimiter_of_mem_afCodes {fs : List Half} {c : Byte} (h : c ∈ afCodes fs) : isDelimiter c = false := by
  obtain ⟨f, -, hf⟩ := List.mem_filterMap.mp h
  obtain ⟨-, hhi⟩ := encodeAf_code_bounds hf
  rw [Bool.eq_false_iff, Ne, isDelimiter_iff]
  rintro (rfl | rfl) <;> simp at hhi

/-- Settles O36: a byte of the payload is a constant of its layout, a code or zero. -/
theorem afPayloadLengthsAndBytes : Obligations.AfPayloadLengthsAndBytes := by
  intro fs bytes h
  obtain ⟨header, trailer, k, hbytes, hconst, hlen⟩ := selectAf_payload h
  refine ⟨hlen, fun b hb => not_or.mp ?_⟩
  rw [← isDelimiter_iff, Bool.not_eq_true]
  rw [hbytes] at hb
  simp only [List.mem_append] at hb hconst
  obtain ((hb | hb) | hb) | hb := hb
  · exact hconst b (.inl hb)
  · exact isDelimiter_of_mem_afCodes hb
  · rw [List.eq_of_mem_replicate hb]; rfl
  · exact hconst b (.inr hb)

/-! ### The commands -/

/-- Settles O15: AFMAP raises on a frequency outside the band and responds with the code inside it. -/
theorem afmapAnswersTheCodeOrInvalidFreq : Obligations.AfmapAnswersTheCodeOrInvalidFreq := by
  refine fun freq s => ⟨rfl, ?_⟩
  change execAfmap freq s = _
  by_cases h : freq.toNat < 8760 ∨ 10790 < freq.toNat
  · rw [if_pos h, execAfmap, encodeAf_of_outside h]
    exact raise_eq .errInvalidFreq s
  · rw [if_neg h, execAfmap, encodeAf_of_inside h]
    exact respond_eq .ok _ s

/-- Settles O16: each answer of the selector gives its record. -/
theorem afpayloadAnswersThePayloadOrItsStatus : Obligations.AfpayloadAnswersThePayloadOrItsStatus := by
  refine fun freqs s => ⟨rfl, ?_⟩
  change execAfpayload freqs s = _
  rw [execAfpayload]
  cases buildAfPayload freqs with
  | empty => exact respond_eq .empty [] s
  | tooMany => exact raise_eq .errAfLength s
  | payload bytes => exact respond_eq .ok bytes s

/-- Settles O17: each answer of the selector gives its record, a payload that of its group's frame. -/
theorem encAfAnswersTheAfFrameOrItsStatus : Obligations.EncAfAnswersTheAfFrameOrItsStatus := by
  refine fun freqs s => ⟨rfl, ?_⟩
  change execEncAf freqs s = _
  rw [execEncAf]
  cases buildAfPayload freqs with
  | empty => exact respond_eq .empty [] s
  | tooMany => exact raise_eq .errAfLength s
  | payload bytes => exact respondGroup_eq 0x13 bytes s

end Sys2Proof.Machine
end

section
/-! SUPPORT. The register commands at every address and the illegal opcode (44_registers R84-R86). -/

namespace Sys2Proof.Machine

/-! ### Reserved addresses -/

/-- A reserved address is none of the six implemented ones (R15). -/
theorem regAddr_ne_of_reserved {a : Byte} (h : 6 ≤ a.toNat) :
    a ≠ 0x00 ∧ a ≠ 0x01 ∧ a ≠ 0x02 ∧ a ≠ 0x03 ∧ a ≠ 0x04 ∧ a ≠ 0x05 := by
  refine ⟨?_, ?_, ?_, ?_, ?_, ?_⟩ <;> rintro rfl <;> simp at h

/-- WRREG at a reserved address raises ERR_BAD_REGISTER and changes no register (R84). -/
theorem exec_wrreg_of_reserved {a : Byte} (h : 6 ≤ a.toNat) (v : Half) (s : State) :
    exec (.wrreg a v) s = .next (s.enqueue (record .errBadRegister [])) := by
  simp [exec, execWrreg, RegFile.write_reserved s.regs v h]

/-- RDREG at a reserved address raises ERR_BAD_REGISTER (R85). -/
theorem exec_rdreg_of_reserved {a : Byte} (h : 6 ≤ a.toNat) (s : State) :
    exec (.rdreg a) s = .next (s.enqueue (record .errBadRegister [])) := by
  simp [exec, execRdreg, RegFile.read_reserved s.regs h]

/-! ### The commands -/

/-- Settles O18: each of the six addresses takes the write its register has, every other one is reserved. The low `n` bits
that the statement extracts are by evaluation those that narrowing to `n` bits keeps. -/
theorem wrregWritesTheUsedBitsOfOneRegister : Obligations.WrregWritesTheUsedBitsOfOneRegister := by
  refine fun addr value s => ⟨rfl, ?_⟩
  rcases regAddr_cases addr with rfl | rfl | rfl | rfl | rfl | rfl | hres
  · exact exec_wrreg_of_write (RegFile.write_pi s.regs value)
  · exact exec_wrreg_of_write (RegFile.write_pty s.regs value)
  · exact exec_wrreg_of_write (RegFile.write_tpta s.regs value)
  · exact exec_wrreg_of_write (RegFile.write_ms s.regs value)
  · exact exec_wrreg_of_write (RegFile.write_di s.regs value)
  · exact exec_wrreg_of_write (RegFile.write_mode s.regs value)
  · obtain ⟨h0, h1, h2, h3, h4, h5⟩ := regAddr_ne_of_reserved hres
    rw [if_neg h0, if_neg h1, if_neg h2, if_neg h3, if_neg h4, if_neg h5]
    exact exec_wrreg_of_reserved hres value s

/-- Settles O19: each of the six addresses reads its register, every other one is reserved. -/
theorem rdregAnswersTheRegisterZeroExtended : Obligations.RdregAnswersTheRegisterZeroExtended := by
  refine fun addr s => ⟨rfl, ?_⟩
  rcases regAddr_cases addr with rfl | rfl | rfl | rfl | rfl | rfl | hres
  · exact exec_rdreg_of_read s.regs.read_pi
  · exact exec_rdreg_of_read s.regs.read_pty
  · exact exec_rdreg_of_read s.regs.read_tpta
  · exact exec_rdreg_of_read s.regs.read_ms
  · exact exec_rdreg_of_read s.regs.read_di
  · exact exec_rdreg_of_read s.regs.read_mode
  · obtain ⟨h0, h1, h2, h3, h4, h5⟩ := regAddr_ne_of_reserved hres
    rw [if_neg h0, if_neg h1, if_neg h2, if_neg h3, if_neg h4, if_neg h5]
    exact exec_rdreg_of_reserved hres s

/-- Settles O20: an illegal opcode raises its status, and the five bytes are that record. -/
theorem illegalOpcodeAnswersItsStatus : Obligations.IllegalOpcodeAnswersItsStatus :=
  fun _ s => ⟨rfl, raise_eq .errIllegalOpcode s⟩

end Sys2Proof.Machine
end

section
/-! SUPPORT. The status each command answers, read off its operands, and the commands that always answer OK
(60_exceptions R87, R88). -/

namespace Sys2Proof.Machine

/-! ### When the AF selector gives no payload -/

/-- The selector has nothing to send exactly for no codes (R79). -/
theorem selectAf_eq_empty_iff (codes : List Byte) : selectAf codes = .empty ↔ codes.length = 0 := by
  unfold selectAf
  split
  case h_1 hn => simp [hn]
  case h_5 hn _ _ _ =>
    refine iff_of_false ?_ hn
    split <;> simp
  all_goals simp [*]

/-- The selector rejects exactly the lists of more than eleven codes (R79). -/
theorem selectAf_eq_tooMany_iff (codes : List Byte) : selectAf codes = .tooMany ↔ 11 < codes.length := by
  refine ⟨fun h => ?_, selectAf_tooMany⟩
  by_contra hle
  unfold selectAf at h
  split at h
  case h_5 =>
    rw [if_pos (by omega)] at h
    cases h
  all_goals cases h

/-! ### The status table -/

/-- The status of the two AF list commands, by what the selector answers (R82, R83). -/
def afStatus : AfPayload → Status
  | .empty => .empty
  | .tooMany => .errAfLength
  | .payload _ => .ok

theorem afStatus_eq_empty_iff (p : AfPayload) : afStatus p = .empty ↔ p = .empty := by
  cases p <;> simp [afStatus]

theorem afStatus_eq_errAfLength_iff (p : AfPayload) : afStatus p = .errAfLength ↔ p = .tooMany := by
  cases p <;> simp [afStatus]

/-- OK, EMPTY and ERR_AF_LENGTH are all an AF list command answers (R82, R83). -/
theorem afStatus_cases (p : AfPayload) : afStatus p = .ok ∨ afStatus p = .empty ∨ afStatus p = .errAfLength := by
  cases p <;> simp [afStatus]

/-- The status a command answers: its operands decide it, no register does (R87). -/
def statusOf : Instr → Status
  | .encAf freqs | .afpayload freqs => afStatus (buildAfPayload freqs)
  | .afmap freq => if freq.toNat < 8760 ∨ 10790 < freq.toNat then .errInvalidFreq else .ok
  | .wrreg addr _ | .rdreg addr => if 6 ≤ addr.toNat then .errBadRegister else .ok
  | .illegal _ => .errIllegalOpcode
  | _ => .ok

theorem statusOf_eq_empty_iff (i : Instr) : statusOf i = .empty ↔
    ∃ fs, (i = .encAf fs ∨ i = .afpayload fs) ∧ (fs.filterMap encodeAf).length = 0 := by
  cases i with
  | encAf fs | afpayload fs =>
    simp only [statusOf, afStatus_eq_empty_iff, buildAfPayload, selectAf_eq_empty_iff, afCodes]
    simp
  | _ => simp [statusOf, ite_eq_iff]

theorem statusOf_eq_errAfLength_iff (i : Instr) : statusOf i = .errAfLength ↔
    ∃ fs, (i = .encAf fs ∨ i = .afpayload fs) ∧ 11 < (fs.filterMap encodeAf).length := by
  cases i with
  | encAf fs | afpayload fs =>
    simp only [statusOf, afStatus_eq_errAfLength_iff, buildAfPayload, selectAf_eq_tooMany_iff, afCodes]
    simp
  | _ => simp [statusOf, ite_eq_iff]

theorem statusOf_eq_errInvalidFreq_iff (i : Instr) : statusOf i = .errInvalidFreq ↔
    ∃ f, i = .afmap f ∧ (f.toNat < 8760 ∨ 10790 < f.toNat) := by
  cases i with
  | encAf fs | afpayload fs => rcases afStatus_cases (buildAfPayload fs) with h | h | h <;> simp [statusOf, h]
  | afmap f =>
    rw [statusOf, (show Status.errInvalidFreq ≠ .ok by decide).ite_eq_left_iff]
    simp
  | _ => simp [statusOf, ite_eq_iff]

theorem statusOf_eq_errIllegalOpcode_iff (i : Instr) : statusOf i = .errIllegalOpcode ↔ ∃ op, i = .illegal op := by
  cases i with
  | encAf fs | afpayload fs => rcases afStatus_cases (buildAfPayload fs) with h | h | h <;> simp [statusOf, h]
  | _ => simp [statusOf, ite_eq_iff]

theorem statusOf_eq_errBadRegister_iff (i : Instr) : statusOf i = .errBadRegister ↔
    ∃ addr, (i = .rdreg addr ∨ ∃ v, i = .wrreg addr v) ∧ 6 ≤ addr.toNat := by
  cases i with
  | encAf fs | afpayload fs => rcases afStatus_cases (buildAfPayload fs) with h | h | h <;> simp [statusOf, h]
  | wrreg addr _ | rdreg addr =>
    rw [statusOf, (show Status.errBadRegister ≠ .ok by decide).ite_eq_left_iff]
    simp
  | _ => simp [statusOf, ite_eq_iff]

/-! ### The commands answer by the table -/

/-- The outcome appends one record of status `st` to the response stream of `s`, empty unless `st` is OK, and changes
nothing else but the registers (R48, R87). -/
def AnswersStatus (s : State) (st : Status) (o : Result) : Prop :=
  ∃ (r : RegFile) (result : List Byte),
    o = .next ((s.setRegs r).enqueue (record st result)) ∧ (st ≠ .ok → result = [])

theorem respond_ok_answersStatus (result : List Byte) (s : State) : AnswersStatus s .ok (respond .ok result s) :=
  ⟨s.regs, result, rfl, fun h => absurd rfl h⟩

theorem raise_answersStatus (st : Status) (s : State) : AnswersStatus s st (raise st s) :=
  ⟨s.regs, [], rfl, fun _ => rfl⟩

theorem execEncAf_answersStatus (freqs : List Half) (s : State) :
    AnswersStatus s (afStatus (buildAfPayload freqs)) (execEncAf freqs s) := by
  unfold execEncAf
  cases buildAfPayload freqs with
  | empty => exact raise_answersStatus .empty s
  | tooMany => exact raise_answersStatus .errAfLength s
  | payload bytes => exact respond_ok_answersStatus (buildFrame (buildGroup 0x13 bytes)) s

theorem execAfpayload_answersStatus (freqs : List Half) (s : State) :
    AnswersStatus s (afStatus (buildAfPayload freqs)) (execAfpayload freqs s) := by
  unfold execAfpayload
  cases buildAfPayload freqs with
  | empty => exact raise_answersStatus .empty s
  | tooMany => exact raise_answersStatus .errAfLength s
  | payload bytes => exact respond_ok_answersStatus bytes s

theorem execAfmap_answersStatus (freq : Half) (s : State) :
    AnswersStatus s (if freq.toNat < 8760 ∨ 10790 < freq.toNat then .errInvalidFreq else .ok)
      (execAfmap freq s) := by
  unfold execAfmap
  by_cases h : freq.toNat < 8760 ∨ 10790 < freq.toNat
  · rw [if_pos h, encodeAf_of_outside h]
    exact raise_answersStatus .errInvalidFreq s
  · rw [if_neg h, encodeAf_of_inside h]
    exact respond_ok_answersStatus _ s

theorem exec_wrreg_answersStatus (addr : Byte) (value : Half) (s : State) :
    AnswersStatus s (if 6 ≤ addr.toNat then .errBadRegister else .ok) (exec (.wrreg addr value) s) := by
  by_cases h : 6 ≤ addr.toNat
  · rw [if_pos h, exec_wrreg_of_reserved h]
    exact raise_answersStatus .errBadRegister s
  · obtain ⟨r, hw⟩ := RegFile.exists_write (Nat.lt_of_not_le h) s.regs value
    rw [if_neg h, exec_wrreg_of_write hw]
    exact respond_ok_answersStatus [] (s.setRegs r)

/-- A read at an implemented address gives something. -/
theorem RegFile.exists_read {a : Byte} (h : a.toNat < 6) (r : RegFile) : ∃ v, r.read a = some v := by
  rcases regAddr_cases a with rfl | rfl | rfl | rfl | rfl | rfl | hres
  case inr.inr.inr.inr.inr.inr => omega
  all_goals exact ⟨_, rfl⟩

theorem exec_rdreg_answersStatus (addr : Byte) (s : State) :
    AnswersStatus s (if 6 ≤ addr.toNat then .errBadRegister else .ok) (exec (.rdreg addr) s) := by
  by_cases h : 6 ≤ addr.toNat
  · rw [if_pos h, exec_rdreg_of_reserved h]
    exact raise_answersStatus .errBadRegister s
  · obtain ⟨v, hr⟩ := RegFile.exists_read (Nat.lt_of_not_le h) s.regs
    rw [if_neg h, exec_rdreg_of_read hr]
    exact respond_ok_answersStatus (be16 v) s

/-- Every command, in every state, answers one record of the status its operands decide (R87). -/
theorem exec_answersStatus (i : Instr) (s : State) : AnswersStatus s (statusOf i) (exec i s) := by
  cases i with
  | encAf freqs => exact execEncAf_answersStatus freqs s
  | afpayload freqs => exact execAfpayload_answersStatus freqs s
  | afmap freq => exact execAfmap_answersStatus freq s
  | wrreg addr value => exact exec_wrreg_answersStatus addr value s
  | rdreg addr => exact exec_rdreg_answersStatus addr s
  | illegal op => exact raise_answersStatus .errIllegalOpcode s
  | _ => exact respond_ok_answersStatus _ s

/-- Settles O44: `statusOf` is the status answered, and each status but OK has one set of commands and operands. -/
theorem statusesFollowTheStatusTable : Obligations.StatusesFollowTheStatusTable := by
  refine ⟨fun i s => ?_, rfl, rfl, rfl, rfl, rfl, rfl⟩
  obtain ⟨r, result, hexec, hempty⟩ := exec_answersStatus i s
  exact ⟨_, statusOf i, result, hexec, by simp, hempty, statusOf_eq_empty_iff i, statusOf_eq_errAfLength_iff i,
    statusOf_eq_errInvalidFreq_iff i, statusOf_eq_errIllegalOpcode_iff i, statusOf_eq_errBadRegister_iff i⟩

/-- Settles O45: each of the twelve responds OK with its result and no register written. -/
theorem twelveCommandsNeverRaiseAnError : Obligations.TwelveCommandsNeverRaiseAnError := by
  intro s data mec year month day hour minute second
  simp only [List.forall_mem_cons]
  refine ⟨?group, ?frame, ?crc16, ?stuff, ?encTpta, ?encPi, ?encPty, ?encMs, ?encDi, ?encPs, ?encRt, ?encClock, ?nil⟩
  case nil => simp
  case group => exact ⟨_, respond_eq .ok (buildGroup mec data) s⟩
  case frame => exact ⟨_, respond_eq .ok (buildFrame data) s⟩
  case crc16 => exact ⟨_, respond_eq .ok (be16 (crc16Of data)) s⟩
  case stuff => exact ⟨_, respond_eq .ok (byteStuff data) s⟩
  case encClock =>
    exact ⟨_, respond_eq .ok (buildFrame (clockMessage s.regs.yearFirst year month day hour minute second)) s⟩
  case encTpta => exact ⟨_, respondGroup_eq 0x03 [s.regs.tptaByte] s⟩
  case encPi => exact ⟨_, respondGroup_eq 0x01 (be16 s.regs.pi) s⟩
  case encPty => exact ⟨_, respondGroup_eq 0x07 [s.regs.pty] s⟩
  case encMs => exact ⟨_, respondGroup_eq 0x05 [s.regs.msByte] s⟩
  case encDi => exact ⟨_, respondGroup_eq 0x04 [s.regs.diByte] s⟩
  case encPs => exact ⟨_, respondGroup_eq 0x02 (padTrunc data psWidth) s⟩
  case encRt => exact ⟨_, respondGroup_eq 0x0A (rtSubHeader ++ padTrunc data rtWidth) s⟩

end Sys2Proof.Machine
end

section
/-! SUPPORT. The two round trips of decoder and encoder, and the length of a command (30_encoding R41-R46). -/

namespace Sys2Proof

/-! ### Decoding an encoding -/

/-- CmdLength of an encoded command, whatever follows it, is the number of bytes the encoder wrote (R46). -/
theorem cmdLength_encode {i : Instr} (hwf : i.wellFormed = true) (rest : List Byte) :
    cmdLength (encode i ++ rest) = some (encode i).length := by
  cases i with
  | encPi => exact Laws.EncodedLength.encPi hwf rest
  | encPs text => exact Laws.EncodedLength.encPs text hwf rest
  | encTpta => exact Laws.EncodedLength.encTpta hwf rest
  | encDi => exact Laws.EncodedLength.encDi hwf rest
  | encMs => exact Laws.EncodedLength.encMs hwf rest
  | encPty => exact Laws.EncodedLength.encPty hwf rest
  | encRt text => exact Laws.EncodedLength.encRt text hwf rest
  | encClock year month day hour minute second =>
    exact Laws.EncodedLength.encClock year month day hour minute second hwf rest
  | encAf freqs => exact Laws.EncodedLength.encAf freqs hwf rest
  | group mec data => exact Laws.EncodedLength.group mec data hwf rest
  | frame data => exact Laws.EncodedLength.frame data hwf rest
  | crc16 data => exact Laws.EncodedLength.crc16 data hwf rest
  | stuff data => exact Laws.EncodedLength.stuff data hwf rest
  | afmap freq => exact Laws.EncodedLength.afmap freq hwf rest
  | afpayload freqs => exact Laws.EncodedLength.afpayload freqs hwf rest
  | wrreg addr value => exact Laws.EncodedLength.wrreg addr value hwf rest
  | rdreg addr => exact Laws.EncodedLength.rdreg addr hwf rest
  | illegal op => exact Laws.EncodedLength.illegal op hwf rest

/-- An encoding is an opcode byte and the operand bytes that spell the command again. Past the opcode and the count field
the fields stand where the decoder reads them; only a 16-bit operand has to be put together again. -/
theorem encode_eq_cons {i : Instr} (hwf : i.wellFormed = true) :
    ∃ op args, encode i = op :: args ∧ decodeFields op args = i := by
  cases i with
  | encPi | encTpta | encDi | encMs | encPty | rdreg => exact ⟨_, _, rfl, rfl⟩
  | encPs | encRt | frame | crc16 | stuff => exact ⟨_, _, rfl, rfl⟩
  | encAf freqs => exact ⟨_, _, rfl, congrArg Instr.encAf (joinEntries_flatMap_be16 freqs)⟩
  | afpayload freqs => exact ⟨_, _, rfl, congrArg Instr.afpayload (joinEntries_flatMap_be16 freqs)⟩
  | encClock year month day hour minute second =>
    exact ⟨_, _, rfl, congrArg (Instr.encClock · month day hour minute second) (join16_hi8_lo8 year)⟩
  | group mec data => exact ⟨_, _, rfl, congrArg (Instr.group · data) (join16_hi8_lo8 mec)⟩
  | afmap freq => exact ⟨_, _, rfl, congrArg Instr.afmap (join16_hi8_lo8 freq)⟩
  | wrreg addr value => exact ⟨_, _, rfl, congrArg (Instr.wrreg addr) (join16_hi8_lo8 value)⟩
  | illegal op => exact ⟨op, [], rfl, by rw [decodeFields, Opcode.ofByte?_of_illegal hwf]⟩

/-- An encoded command decodes to itself and leaves what follows it. -/
theorem decode_encode_append {i : Instr} (hwf : i.wellFormed = true) (rest : List Byte) :
    decode (encode i ++ rest) = .command i rest := by
  obtain ⟨op, args, henc, hfields⟩ := encode_eq_cons hwf
  have hlen := cmdLength_encode hwf rest
  rw [henc, List.cons_append] at hlen ⊢
  rw [decode_of_length hlen (by simp)]
  simp [hfields]

/-- Settles O37: the length read is the encoding's, and its operand bytes spell the command. -/
theorem decodeOfEncodeIsTheCommand : Obligations.DecodeOfEncodeIsTheCommand :=
  fun _ rest hwf => decode_encode_append hwf rest

/-! ### Encoding what was decoded -/

/-- Operand bytes of a known number are those that `argByte` reads. -/
theorem map_argByte_range {args : List Byte} {k : Nat} (h : args.length = k) :
    (List.range k).map (argByte args) = args := by
  subst h
  exact List.ext_getElem (by simp) fun k _ hk => by simp [argByte, hk]

/-- The first bytes of a sequence, as many as two bytes count, fit a count field and have those two bytes as theirs (R42). -/
theorem byteCount_take {l1 l0 : Byte} {data : List Byte} (h : (join16 l1 l0).toNat ≤ data.length) :
    fitsByteCount (data.take (join16 l1 l0).toNat) = true ∧
      byteCount (data.take (join16 l1 l0).toNat) = [l1, l0] := by
  have hlen : (data.take (join16 l1 l0).toNat).length = (join16 l1 l0).toNat := List.length_take_of_le h
  refine ⟨?_, by simp [byteCount, hlen]⟩
  rw [fitsByteCount, hlen, decide_eq_true_eq]
  omega

/-- The bytes a format B command consumes are the encoding of its data (R42). -/
theorem encodeB_of_cmdLength {o : Opcode} {args : List Byte} {n : Nat} (ho : o.format = .b)
    (hn : cmdLength (o.code :: args) = some n) (hl : n ≤ args.length + 1) :
    fitsByteCount ((args.take (n - 1)).drop 2) = true ∧
      encodeB o ((args.take (n - 1)).drop 2) = o.code :: args.take (n - 1) := by
  obtain ⟨l1, l0, data, rfl, rfl⟩ := cmdLength_b ho hn
  simp only [List.length_cons] at hl
  obtain ⟨hfits, hcount⟩ := byteCount_take (l1 := l1) (l0 := l0) (data := data) (by omega)
  rw [show 3 + (join16 l1 l0).toNat - 1 = (join16 l1 l0).toNat + 2 by omega]
  exact ⟨hfits, congrArg (_ :: · ++ _) hcount⟩

/-- The bytes GROUP consumes are the encoding of its MEC and data (R42). -/
theorem encode_group_of_cmdLength {args : List Byte} {n : Nat}
    (hn : cmdLength (Opcode.group.code :: args) = some n) (hl : n ≤ args.length + 1) :
    fitsByteCount ((args.take (n - 1)).drop 4) = true ∧
      encode (.group (argHalf (args.take (n - 1)) 0) ((args.take (n - 1)).drop 4)) =
        Opcode.group.code :: args.take (n - 1) := by
  obtain ⟨m1, m0, l1, l0, data, rfl, rfl⟩ := cmdLength_g rfl hn
  simp only [List.length_cons] at hl
  obtain ⟨hfits, hcount⟩ := byteCount_take (l1 := l1) (l0 := l0) (data := data) (by omega)
  rw [show 5 + (join16 l1 l0).toNat - 1 = (join16 l1 l0).toNat + 4 by omega]
  exact ⟨hfits, by simp [encode, argHalf, argByte, hcount]⟩

/-- The bytes a format L command consumes are the encoding of its entries (R42). -/
theorem encodeL_of_cmdLength {o : Opcode} {args : List Byte} {n : Nat} (ho : o.format = .l)
    (hn : cmdLength (o.code :: args) = some n) (hl : n ≤ args.length + 1) :
    fitsEntryCount (joinEntries ((args.take (n - 1)).drop 1)) = true ∧
      encodeL o (joinEntries ((args.take (n - 1)).drop 1)) = o.code :: args.take (n - 1) := by
  obtain ⟨c, entries, rfl, rfl⟩ := cmdLength_l ho hn
  simp only [List.length_cons] at hl
  have hlen : (entries.take (2 * c.toNat)).length = 2 * c.toNat := List.length_take_of_le (by omega)
  obtain ⟨hbytes, hcount⟩ := flatMap_joinEntries c.toNat _ hlen
  rw [show 2 + 2 * c.toNat - 1 = 2 * c.toNat + 1 by omega]
  refine ⟨?_, by simp [encodeL, entryCount, hcount, hbytes]⟩
  rw [List.take_succ_cons, List.drop_one, List.tail_cons, fitsEntryCount, hcount, decide_eq_true_eq]
  omega

/-- The command spelled by an opcode byte and the operand bytes its length cuts off is well-formed, and they are its
encoding. The length of a fixed format is computed, and the decoder then reads every byte it cuts off. -/
theorem encode_decodeFields {op : Byte} {args : List Byte} {n : Nat} (hn : cmdLength (op :: args) = some n)
    (hl : n ≤ args.length + 1) :
    (decodeFields op (args.take (n - 1))).wellFormed = true ∧
      encode (decodeFields op (args.take (n - 1))) = op :: args.take (n - 1) := by
  have hlen : (args.take (n - 1)).length = n - 1 := by rw [List.length_take]; omega
  cases ho : Opcode.ofByte? op with
  | none =>
    have hn1 : n = 1 := by simpa [cmdLength, formatOf, ho, eq_comm] using hn
    subst hn1
    rw [decodeFields, ho]
    exact ⟨(Opcode.ofByte?_eq_none_iff op).1 ho, rfl⟩
  | some o =>
    obtain rfl := Opcode.code_of_ofByte? ho
    cases o with
    | encPi | encTpta | encDi | encMs | encPty =>
      obtain rfl : 1 = n := Option.some.inj hn
      exact ⟨rfl, rfl⟩
    | encPs | encRt | frame | crc16 | stuff => exact encodeB_of_cmdLength rfl hn hl
    | encAf | afpayload => exact encodeL_of_cmdLength rfl hn hl
    | group => exact encode_group_of_cmdLength hn hl
    | encClock =>
      obtain rfl : 8 = n := Option.some.inj hn
      refine ⟨rfl, congrArg (_ :: ·) (Eq.trans ?_ (map_argByte_range hlen))⟩
      exact congrArg (· ++ _) (be16_join16 _ _)
    | afmap =>
      obtain rfl : 3 = n := Option.some.inj hn
      exact ⟨rfl, congrArg (_ :: ·) ((be16_join16 _ _).trans (map_argByte_range hlen))⟩
    | wrreg =>
      obtain rfl : 4 = n := Option.some.inj hn
      refine ⟨rfl, congrArg (_ :: ·) (Eq.trans ?_ (map_argByte_range hlen))⟩
      exact congrArg (_ :: ·) (be16_join16 _ _)
    | rdreg =>
      obtain rfl : 2 = n := Option.some.inj hn
      exact ⟨rfl, congrArg (_ :: ·) (map_argByte_range hlen)⟩

/-- A decoded command is one a byte sequence encodes. -/
theorem wellFormed_of_decode {bs rest : List Byte} {i : Instr} (h : decode bs = .command i rest) :
    i.wellFormed = true := by
  obtain ⟨op, args, n, rfl, hn, hl, rfl, -⟩ := decode_command h
  exact (encode_decodeFields hn hl).1

/-- The bytes a decoded command consumed are its encoding. -/
theorem encode_append_of_decode {bs rest : List Byte} {i : Instr} (h : decode bs = .command i rest) :
    encode i ++ rest = bs := by
  obtain ⟨op, args, n, rfl, hn, hl, rfl, rfl⟩ := decode_command h
  rw [(encode_decodeFields hn hl).2, List.cons_append, List.take_append_drop]

/-- Settles O38: what the length cuts off is the decoded command's encoding, in every format. -/
theorem encodeOfDecodeIsTheBytes : Obligations.EncodeOfDecodeIsTheBytes :=
  fun _ _ _ h => ⟨wellFormed_of_decode h, encode_append_of_decode h⟩

/-- Decoding a command does not look at what follows it. -/
theorem decode_append {bs rest : List Byte} {i : Instr} (h : decode bs = .command i rest) (more : List Byte) :
    decode (bs ++ more) = .command i (rest ++ more) := by
  rw [← encode_append_of_decode h, List.append_assoc, decode_encode_append (wellFormed_of_decode h)]

/-- A decoded command leaves fewer bytes than there were. -/
theorem length_lt_of_decode {bs rest : List Byte} {i : Instr} (h : decode bs = .command i rest) :
    rest.length < bs.length := by
  have := List.length_pos_iff.mpr (encode_ne_nil i)
  rw [← encode_append_of_decode h, List.length_append]
  omega

/-- After bytes that hold no complete command, a command's last byte is one of those that follow them. -/
theorem length_le_of_decode_append {held bs rest : List Byte} {i : Instr} (hheld : isComplete held = false)
    (h : decode (held ++ bs) = .command i rest) : rest.length ≤ bs.length := by
  by_contra hlt
  obtain ⟨cut, hcut, -⟩ | ⟨cut, -, hcut⟩ := List.append_eq_append_iff.mp (encode_append_of_decode h)
  · have hdecode := decode_encode_append (wellFormed_of_decode h) cut
    rw [← hcut] at hdecode
    simp [isComplete_iff.mpr ⟨i, cut, hdecode⟩] at hheld
  · rw [hcut, List.length_append] at hlt
    omega

/-! ### CmdLength -/

/-- The length is read from the first five bytes (R46). -/
theorem cmdLength_take_five (bs : List Byte) : cmdLength (bs.take 5) = cmdLength bs := by
  match bs with
  | [] | [_] | [_, _] | [_, _, _] | [_, _, _, _] => rfl
  | op :: _ :: _ :: _ :: _ :: _ =>
    simp only [List.take, cmdLength]

/-- Five bytes determine the length (R46). -/
theorem exists_cmdLength {bs : List Byte} (h : 5 ≤ bs.length) : ∃ n, cmdLength bs = some n := by
  match bs with
  | op :: _ :: _ :: _ :: _ :: _ =>
    simp only [cmdLength]
    cases formatOf op <;> exact ⟨_, rfl⟩

/-- Settles O39: both clauses on the first five bytes are `cmdLength_take_five`. -/
theorem lengthIsKnownFromFiveBytes : Obligations.LengthIsKnownFromFiveBytes :=
  fun bs => ⟨fun _ h => (cmdLength_take_five bs).symm.trans h, (cmdLength_take_five bs).symm, exists_cmdLength⟩

/-- A command is 1 to 65 540 bytes long, its count field being at most 16 bits wide (R41). -/
theorem cmdLength_bounds {bs : List Byte} {n : Nat} (h : cmdLength bs = some n) : 1 ≤ n ∧ n ≤ 65540 := by
  unfold cmdLength at h
  split at h
  · cases h
  · split at h
    case h_7 | h_8 | h_9 =>
      split at h <;> simp only [Option.some.injEq, reduceCtorEq] at h
      omega
    all_goals simp only [Option.some.injEq] at h; omega

/-- Settles O40: the bounds, and the bytes after the cut counted. -/
theorem commandsAreOneTo65540Bytes : Obligations.CommandsAreOneTo65540Bytes := by
  refine ⟨fun bs n h => cmdLength_bounds h, fun bs i rest h => ?_⟩
  obtain ⟨op, args, n, rfl, hn, hl, -, rfl⟩ := decode_command h
  have hpos := cmdLength_bounds hn
  refine ⟨n, hn, ?_⟩
  simp only [List.length_cons, List.length_drop]
  omega

/-- Bytes that hold no complete command are fewer than the longest command has (R41, R46). -/
theorem length_lt_of_incomplete {bs : List Byte} (h : isComplete bs = false) : bs.length < 65540 := by
  by_contra hlong
  obtain ⟨n, hn⟩ := exists_cmdLength (bs := bs) (by omega)
  have hle := cmdLength_bounds hn
  simp only [isComplete, hn, decide_eq_false_iff_not] at h
  omega

/-! ### The opcodes -/

/-- Settles O41: an illegal command's encoding is its opcode, so the two round trips say which bytes decode to one. -/
theorem illegalOpcodesAreExactlyTheListed : Obligations.IllegalOpcodesAreExactlyTheListed := by
  refine ⟨fun op => ⟨fun hop => decode_encode_append (i := .illegal op) hop, fun h => wellFormed_of_decode (h [])⟩,
    fun op other args rest h => ?_, fun _ s => Machine.raise_eq .errIllegalOpcode s⟩
  obtain ⟨rfl, rfl⟩ := List.cons.inj (encode_append_of_decode h)
  exact ⟨wellFormed_of_decode h, rfl, rfl⟩

/-- Settles O42: each word is decoded. -/
theorem wordsOfEveryFormatDecode : Obligations.WordsOfEveryFormatDecode :=
  ⟨rfl, rfl, rfl, rfl, rfl, rfl, rfl, rfl, rfl⟩

end Sys2Proof
end

section
/-! SUPPORT. The CRC register bit by bit, and the CRC run on over its own frame (41_group_frame R54, R57). -/

namespace Sys2Proof.Machine

/-! ### The bit-serial register -/

/-- The `n` topmost bits of a word, most significant first. -/
def topBits (x : Half) (n : Nat) : List Bool := (List.range n).map fun k => x.getLsbD (15 - k)

theorem topBits_succ (x : Half) (n : Nat) : topBits x (n + 1) = topBits x n ++ [x.getLsbD (15 - n)] := by
  simp [topBits, List.range_succ]

/-- A round on the register with a word added takes the word's top bit in serially and shifts the rest of the word on. -/
theorem crcRound_xor (c x : Half) : crcRound (c ^^^ x) = lfsrBit c (x.getLsbD 15) ^^^ (x <<< 1) := by
  simp only [crcRound, lfsrBit, BitVec.getLsbD_xor, BitVec.shiftLeft_xor_distrib]
  split
  · ac_rfl
  · rfl

/-- Rounds on the register with a word added take that many of the word's top bits in serially. -/
theorem repeat_crcRound_xor (c x : Half) {n : Nat} (hn : n ≤ 16) :
    Nat.repeat crcRound n (c ^^^ x) = (topBits x n).foldl lfsrBit c ^^^ (x <<< n) := by
  induction n with
  | zero => simp [Nat.repeat, topBits]
  | succ n ih =>
    have hbit : (x <<< n).getLsbD 15 = x.getLsbD (15 - n) := by
      rw [BitVec.getLsbD_shiftLeft]
      simp [show ¬ 15 < n by omega]
    rw [Nat.repeat, ih (by omega), crcRound_xor, hbit, topBits_succ, List.foldl_append, ← BitVec.shiftLeft_add]
    rfl

/-- A byte added at the top of a word has its eight bits there. -/
theorem topBits_byte (b : Byte) :
    topBits (b.setWidth 16 <<< 8) 8 = [7, 6, 5, 4, 3, 2, 1, 0].map fun k => b.getLsbD k := by
  simp [topBits, List.range_succ]

/-- The bits of a word's two bytes are the word's bits. -/
theorem bitsOf_be16 (v : Half) : bitsOf (be16 v) = topBits v 16 := by
  simp [bitsOf, be16, hi8, lo8, topBits, List.range_succ]

/-- A byte through the register is its eight bits through the bit-serial one: the byte is shifted out whole. -/
theorem crcByte_eq_foldl_lfsrBit (c : Half) (b : Byte) :
    crcByte c b = ([7, 6, 5, 4, 3, 2, 1, 0].map fun k => b.getLsbD k).foldl lfsrBit c := by
  have hout : b.setWidth 16 <<< 8 <<< 8 = 0#16 := by
    rw [← BitVec.shiftLeft_add, BitVec.shiftLeft_eq_zero (by decide)]
  rw [crcByte, repeat_crcRound_xor c _ (by decide), topBits_byte, hout, BitVec.xor_zero]

/-- Bytes through the register are their bits through the bit-serial one. -/
theorem crcRun_eq_foldl_lfsrBit (c : Half) (s : List Byte) : crcRun c s = (bitsOf s).foldl lfsrBit c := by
  induction s generalizing c with
  | nil => rfl
  | cons b s ih =>
    rw [crcRun_cons, ih, crcByte_eq_foldl_lfsrBit, ← List.foldl_append]
    rfl

/-- Settles O24: the two registers agree from the initial value on. -/
theorem crcEqualsTheBitSerialRegister : Obligations.CrcEqualsTheBitSerialRegister :=
  fun s => congrArg (· ^^^ 0xFFFF) (crcRun_eq_foldl_lfsrBit 0xFFFF s)

/-! ### The residue of a frame -/

/-- Two bytes through the register are sixteen rounds on the register with their word added. -/
theorem crcRun_be16 (c v : Half) : crcRun c (be16 v) = Nat.repeat crcRound 16 (c ^^^ v) := by
  rw [crcRun_eq_foldl_lfsrBit, bitsOf_be16, repeat_crcRound_xor c v (by decide),
    BitVec.shiftLeft_eq_zero (by decide), BitVec.xor_zero]

/-- The register with its own complement added is all ones, which sixteen rounds take to the residue. -/
theorem crcRun_be16_complement (c : Half) : crcRun c (be16 (c ^^^ 0xFFFF)) = 0x1D0F := by
  rw [crcRun_be16, ← BitVec.xor_assoc, BitVec.xor_self, BitVec.zero_xor]
  decide +kernel

/-- Settles O25: the CRC in the frame is the complement of the register the header and the message leave. -/
theorem crcOverItsOwnFrameIsConstant : Obligations.CrcOverItsOwnFrameIsConstant := by
  intro m
  rw [frameBody, crcRun_append, crc16Of, crcRun_be16_complement]

end Sys2Proof.Machine
end

section
/-! SUPPORT. What every command does to the state, and the parse of its record (30_encoding R48, 10_state R39). -/

namespace Sys2Proof.Machine

/-! ### Every command -/

/-- Every command answers a next state. -/
theorem exists_exec_next (i : Instr) (s : State) : ∃ t, exec i s = .next t := ⟨_, exec_eq_runAlone i s⟩

/-- Only a WRREG to one of the six addresses touches the registers: every other command responds in the state it is run
in (R39). -/
theorem exec_regs {i : Instr} {s t : State} (h : exec i s = .next t) :
    t.regs = s.regs ∨ ∃ addr value, i = .wrreg addr value ∧ addr.toNat < 6 := by
  cases i with
  | encAf | afpayload | afmap | rdreg =>
    simp only [exec, execEncAf, execAfpayload, execAfmap, execRdreg] at h
    split at h <;> cases h <;> exact .inl rfl
  | wrreg addr value =>
    by_cases hres : 6 ≤ addr.toNat
    · rw [exec_wrreg_of_reserved hres] at h
      cases h
      exact .inl rfl
    · exact .inr ⟨addr, value, rfl, by omega⟩
  | _ => cases h; exact .inl rfl

/-- Settles O43: the record is that of the status the operands decide, and a WRREG that writes has status OK. -/
theorem everyCommandAnswersOneRecordAndItsFrame : Obligations.EveryCommandAnswersOneRecordAndItsFrame := by
  intro i s
  obtain ⟨r, result, hexec, hempty⟩ := exec_answersStatus i s
  refine ⟨_, statusOf i, result, hexec, by simp [record], hempty, rfl, rfl, rfl, rfl, ?_⟩
  obtain hregs | ⟨addr, value, rfl, haddr⟩ := exec_regs hexec
  · exact .inl hregs
  · exact .inr ⟨if_neg (by omega), addr, value, rfl⟩

/-! ### The host's parse of a record -/

/-- The four bytes of a 32-bit number spell it (R9). -/
theorem ofBe32_of_be32 {n : Nat} {b3 b2 b1 b0 : Byte} (h : be32 n = [b3, b2, b1, b0]) (hn : n < 2 ^ 32) :
    ofBe32 b3 b2 b1 b0 = n := by
  cases h
  simp only [ofBe32, BitVec.extractLsb'_toNat, BitVec.toNat_ofNat, Nat.shiftRight_eq_div_pow]
  omega

/-- Past a status byte and a length field the parse cuts off as many bytes as the field says (R48). -/
theorem parseRecord_be32 (st : Byte) {n : Nat} (hn : n < 2 ^ 32) {body : List Byte} (hbody : n ≤ body.length) :
    parseRecord (st :: (be32 n ++ body)) = some (st, body.take n, body.drop n) := by
  obtain ⟨b3, b2, b1, b0, hfield⟩ : ∃ b3 b2 b1 b0, be32 n = [b3, b2, b1, b0] := ⟨_, _, _, _, rfl⟩
  simp [hfield, parseRecord, ofBe32_of_be32 hfield hn, Nat.not_lt.mpr hbody]

/-- Settles O54: the length field says where the result ends. -/
theorem recordsAreSelfDelimiting : Obligations.RecordsAreSelfDelimiting := by
  intro st result rest hlen
  rw [record, List.cons_append, List.append_assoc, parseRecord_be32 _ hlen (by simp)]
  simp

end Sys2Proof.Machine
end

section
/-! SUPPORT. The four things a step does, and what they do to buffers and command position (30_encoding R46, R47,
70_reset R100-R102). -/

namespace Sys2Proof.Machine

/-! ### The step, case by case -/

/-- With the output buffer full the core does nothing (R102). -/
theorem step_of_outFull {s : State} (hfull : s.outFull = true) : step s = .next s := if_pos hfull

/-- With room, a record being handed over gives its next byte. -/
theorem step_of_emitting {s : State} {b : Byte} {rest : List Byte} (hroom : s.outFull = false)
    (hemit : s.emitting = b :: rest) : step s = .next (s.emitByte b rest) := by
  simp [step, hroom, hemit]

/-- With room and no record in flight, a complete command is executed once its bytes are consumed (R46). -/
theorem step_of_command {s : State} {i : Instr} {rest : List Byte} (hroom : s.outFull = false)
    (hemit : s.emitting = []) (hdecode : decode s.commandBytes = .command i rest) :
    step s = exec i (s.consume rest) := by
  simp [step, hroom, hemit, State.fetch, hdecode]

/-- With room, no record in flight and no complete command, the core consumes what is there (R100). -/
theorem step_of_incomplete {s : State} (hroom : s.outFull = false) (hemit : s.emitting = [])
    (hincomplete : isComplete s.commandBytes = false) : step s = .next s.hold := by
  cases hfetch : s.fetch with
  | none => simp [step, hroom, hemit, hfetch]
  | some it =>
    obtain ⟨rest, hdecode, -⟩ := State.fetch_some hfetch
    simp [isComplete_iff.mpr ⟨_, rest, hdecode⟩] at hincomplete

/-- The output buffer has room exactly when it holds fewer than OUT_DEPTH bytes (R102). -/
theorem State.outFull_eq_false_iff (s : State) : s.outFull = false ↔ s.outBuf.length < Config.outDepth := by
  rw [Bool.eq_false_iff, Ne, State.outFull_iff, Nat.not_le]

/-- After the hold the command bytes at hand are all in the decoder. -/
@[simp] theorem State.commandBytes_hold (s : State) : s.hold.commandBytes = s.commandBytes :=
  List.append_nil _

/-- Settles O47: the state the command is executed in is `State.consume`. -/
theorem stepRunsTheDecodedCommand : Obligations.StepRunsTheDecodedCommand :=
  fun _ _ _ hroom hemit hdecode => step_of_command hroom hemit hdecode

/-- Settles O49: the state after the hold is `State.hold`, which moves the input buffer into the decoder. -/
theorem incompleteCommandHoldsTheCore : Obligations.IncompleteCommandHoldsTheCore :=
  fun s hroom hemit hincomplete =>
    ⟨s.hold, step_of_incomplete hroom hemit hincomplete, s.commandBytes_hold, rfl, rfl, rfl, rfl, rfl⟩

/-- A push is refused exactly with IN_DEPTH bytes in the input buffer (R102). -/
theorem State.push_eq_none_iff (s : State) (b : Byte) : s.push b = none ↔ Config.inDepth ≤ s.inBuf.length := by
  simp [State.push]

/-- Settles O50: a buffer is full from its depth on. -/
theorem fullBuffersHoldCoreAndHost : Obligations.FullBuffersHoldCoreAndHost :=
  ⟨fun s hfull => step_of_outFull (s.outFull_iff.mpr hfull), fun s b => (s.push_eq_none_iff b).symm⟩

/-- Settles O51: the state after the byte is `State.emitByte`. -/
theorem recordBytesAreHandedOverInOrder : Obligations.RecordBytesAreHandedOverInOrder :=
  fun s _ _ hemit hroom => step_of_emitting (s.outFull_eq_false_iff.mpr hroom) hemit

/-- Settles O53: every branch of the step is a next state, execution by `exists_exec_next`. -/
theorem everyStepAnswersANextState : Obligations.EveryStepAnswersANextState := by
  intro s
  cases hfull : s.outFull with
  | true => exact ⟨s, step_of_outFull hfull⟩
  | false =>
    cases hemit : s.emitting with
    | cons b rest => exact ⟨_, step_of_emitting hfull hemit⟩
    | nil =>
      cases hcomplete : isComplete s.commandBytes with
      | false => exact ⟨_, step_of_incomplete hfull hemit hcomplete⟩
      | true =>
        obtain ⟨i, rest, hdecode⟩ := isComplete_iff.mp hcomplete
        rw [step_of_command hfull hemit hdecode]
        exact exists_exec_next i (s.consume rest)

/-- Settles O2: at reset nothing is at hand, and holding nothing is the reset state again. -/
theorem resetAbandonsEverythingInFlight : Obligations.ResetAbandonsEverythingInFlight :=
  fun _ => ⟨rfl, rfl, step_of_incomplete State.outFull_reset rfl rfl⟩

/-- Settles O22: only an execution changes registers, and only WRREG's does. -/
theorem onlyWrregChangesARegister : Obligations.OnlyWrregChangesARegister := by
  intro s t hstep hne
  obtain ⟨-, rfl⟩ | ⟨-, b, rest, -, rfl⟩ | ⟨-, -, i, rest, hdecode, hexec⟩ | ⟨-, -, -, rfl⟩ := step_cases hstep
  · exact absurd rfl hne
  · exact absurd rfl hne
  · obtain hregs | ⟨addr, value, rfl, haddr⟩ := exec_regs hexec
    · exact absurd hregs hne
    · exact ⟨addr, value, rest, hdecode, haddr⟩
  · exact absurd rfl hne

/-- A run takes its steps one after the other. -/
theorem run_succ_of_step {M : Host.Core} {s t : M.State} (h : M.step s = .next t) (k : Nat) :
    M.run (k + 1) s = M.run k t := by
  simp [Host.Core.run, h]

/-- With room for all of it, as many steps as a record has bytes left hand it over. -/
theorem core_run_emitting {bytes : List Byte} {s : State} (hemit : s.emitting = bytes)
    (hroom : s.outBuf.length + bytes.length ≤ Config.outDepth) :
    core.run bytes.length s = .next ({ s with outBuf := s.outBuf ++ bytes, emitting := [] } : State) := by
  induction bytes generalizing s with
  | nil =>
    have hs : s = { s with outBuf := s.outBuf ++ [], emitting := [] } := by rw [List.append_nil, ← hemit]
    exact congrArg Host.Outcome.next hs
  | cons b rest ih =>
    rw [List.length_cons] at hroom ⊢
    have hroom' : (s.emitByte b rest).outBuf.length + rest.length ≤ Config.outDepth := by simp; omega
    have hstep : step s = .next (s.emitByte b rest) :=
      step_of_emitting (s.outFull_eq_false_iff.mpr (by omega)) hemit
    refine (run_succ_of_step (M := core) hstep rest.length).trans ((ih rfl hroom').trans ?_)
    simp [State.emitByte]

/-- Settles O52: one byte a step, by induction over the bytes left. -/
theorem emissionDrainsWhenThereIsRoom : Obligations.EmissionDrainsWhenThereIsRoom :=
  fun _ hroom => core_run_emitting rfl hroom

end Sys2Proof.Machine
end

section
/-! SUPPORT. The invariant of the core, at reset, under the core's step and under the host's moves, and the command position
it fixes (10_state R13, R24, R28, 30_encoding R41, R47). -/

namespace Sys2Proof.Machine

/-! ### The core -/

/-- Settles O55: every buffer is empty at reset, and no byte is no complete command. -/
theorem invariantHoldsAtReset : Obligations.InvariantHoldsAtReset where
  inBuf_le := Nat.zero_le _
  outBuf_le := Nat.zero_le _
  decoder_incomplete := rfl
  decoder_lt := by decide
  decoder_counted := Nat.le_refl 0
  emitting_le := Nat.zero_le _

/-- A command that completes takes bytes from the input buffer only past those the decoder holds. -/
theorem State.Inv.rest_length_le {s : State} {i : Instr} {rest : List Byte} (hinv : s.Inv)
    (hdecode : decode s.commandBytes = .command i rest) : rest.length ≤ s.inBuf.length :=
  length_le_of_decode_append hinv.decoder_incomplete hdecode

/-- Handing a byte over keeps the invariant: there was room for it. -/
theorem State.Inv.emitByte {s : State} {b : Byte} {rest : List Byte} (hinv : s.Inv)
    (hroom : s.outBuf.length < Config.outDepth) (hemit : s.emitting = b :: rest) : (s.emitByte b rest).Inv where
  inBuf_le := hinv.inBuf_le
  outBuf_le := by rw [State.emitByte_outBuf, List.length_append]; exact hroom
  decoder_incomplete := hinv.decoder_incomplete
  decoder_lt := hinv.decoder_lt
  decoder_counted := hinv.decoder_counted
  emitting_le := by
    have hle := hinv.emitting_le
    rw [hemit, List.length_cons] at hle
    rw [State.emitByte_emitting]
    omega

/-- Executing a command keeps the invariant: the decoder is left empty, and the record is the only one in flight. -/
theorem State.Inv.exec {s t : State} {i : Instr} {rest : List Byte} (hinv : s.Inv) (hemit : s.emitting = [])
    (hdecode : decode s.commandBytes = .command i rest) (hexec : exec i (s.consume rest) = .next t) : t.Inv := by
  obtain ⟨r, st, result, heq, hlen⟩ := exec_answersOneRecord (wellFormed_of_decode hdecode) (s.consume rest)
  obtain rfl := Host.Outcome.next.inj (heq.symm.trans hexec)
  exact {
    inBuf_le := (hinv.rest_length_le hdecode).trans hinv.inBuf_le
    outBuf_le := hinv.outBuf_le
    decoder_incomplete := rfl
    decoder_lt := (by decide : 0 < maxCommand)
    decoder_counted := Nat.zero_le _
    emitting_le := by simpa [hemit] using hlen }

/-- Holding keeps the invariant: bytes that are no complete command are fewer than the longest has. -/
theorem State.Inv.hold {s : State} (hinv : s.Inv) (hincomplete : isComplete s.commandBytes = false) : s.hold.Inv where
  inBuf_le := Nat.zero_le _
  outBuf_le := hinv.outBuf_le
  decoder_incomplete := hincomplete
  decoder_lt := length_lt_of_incomplete hincomplete
  decoder_counted := by
    rw [State.hold_decoder, State.commandBytes, List.length_append, State.hold_position]
    exact Nat.add_le_add_right hinv.decoder_counted _
  emitting_le := hinv.emitting_le

/-- Every step keeps the invariant. -/
theorem State.Inv.step {s t : State} (hinv : s.Inv) (hstep : step s = .next t) : t.Inv := by
  obtain ⟨-, rfl⟩ | ⟨hroom, b, rest, hemit, rfl⟩ | ⟨-, hemit, i, rest, hdecode, hexec⟩ | ⟨-, -, hincomplete, rfl⟩ :=
    step_cases hstep
  · exact hinv
  · exact hinv.emitByte (s.outFull_eq_false_iff.mp hroom) hemit
  · exact hinv.exec hemit hdecode hexec
  · exact hinv.hold hincomplete

/-- Settles O56: each of the four things a step does keeps the invariant. -/
theorem everyStepKeepsTheInvariant : Obligations.EveryStepKeepsTheInvariant :=
  fun _ _ hinv hstep => hinv.step hstep

/-- Settles O48: the bytes taken from the input buffer are those of the command that the decoder did not hold. -/
theorem positionAdvancesByCommandLength : Obligations.PositionAdvancesByCommandLength := by
  intro s t i rest hinv hroom hemit hdecode hstep
  obtain ⟨n, hn, hlen⟩ := commandsAreOneTo65540Bytes.2 s.commandBytes i rest hdecode
  rw [step_of_command hroom hemit hdecode, exec_eq_runAlone] at hstep
  obtain rfl := Host.Outcome.next.inj hstep
  refine ⟨n, hn, ?_, rfl⟩
  have hcounted := hinv.decoder_counted
  have hrest := hinv.rest_length_le hdecode
  rw [State.commandBytes, List.length_append] at hlen
  simp only [State.enqueue_position, State.setRegs_position, State.consume_position]
  omega

/-! ### The host's moves -/

/-- A push keeps the invariant: there was room for the byte. -/
theorem State.Inv.push {s t : State} {b : Byte} (hinv : s.Inv) (hpush : s.push b = some t) : t.Inv := by
  obtain ⟨hroom, rfl⟩ := State.push_some hpush
  exact { hinv with inBuf_le := by rw [List.length_append]; exact hroom }

/-- A take keeps the invariant: the output buffer is left shorter. -/
theorem State.Inv.take {s t : State} {b : Byte} (hinv : s.Inv) (htake : s.take = some (b, t)) : t.Inv := by
  obtain ⟨hout, heq⟩ := State.take_some htake
  have hle := hinv.outBuf_le
  rw [hout, List.length_cons] at hle
  rw [heq]
  exact { hinv with outBuf_le := by simpa using Nat.le_of_succ_le hle }

/-- Settles O57: push and take keep the depths, and reset leaves the reset state. -/
theorem hostMovesKeepTheInvariant : Obligations.HostMovesKeepTheInvariant :=
  fun _ hinv => ⟨fun _ _ => hinv.push, fun _ _ => hinv.take, invariantHoldsAtReset⟩

/-! ### Histories -/

/-- Every state a core reaches has the invariant. -/
theorem History.inv {pushed taken : List Byte} {s : State} (h : History pushed taken s) : s.Inv := by
  induction h with
  | start => exact invariantHoldsAtReset
  | push _ hpush ih => exact ih.push hpush
  | take _ htake ih => exact ih.take htake
  | step _ hstep ih => exact ih.step hstep
  | resets => exact invariantHoldsAtReset

/-- A step only moves bytes from the input buffer to the position's count. -/
theorem step_position_add_inBuf {s t : State} (hinv : s.Inv) (hstep : step s = .next t) :
    t.position + t.inBuf.length = s.position + s.inBuf.length := by
  obtain ⟨-, rfl⟩ | ⟨-, b, rest, -, rfl⟩ | ⟨-, -, i, rest, hdecode, hexec⟩ | ⟨-, -, -, rfl⟩ := step_cases hstep
  · rfl
  · rfl
  · rw [exec_eq_runAlone] at hexec
    obtain rfl := Host.Outcome.next.inj hexec
    have hrest := hinv.rest_length_le hdecode
    simp only [State.enqueue_position, State.setRegs_position, State.consume_position, State.enqueue_inBuf,
      State.setRegs_inBuf, State.consume_inBuf]
    omega
  · rfl

/-- Settles O58: a push adds a byte to the input buffer, and a step moves bytes from there to the count. -/
theorem positionCountsConsumedBytes : Obligations.PositionCountsConsumedBytes := by
  intro pushed taken s h
  induction h with
  | start => rfl
  | push _ hpush ih =>
    obtain ⟨-, rfl⟩ := State.push_some hpush
    simp only [List.length_append, List.length_singleton]
    omega
  | take _ htake ih =>
    obtain ⟨-, heq⟩ := State.take_some htake
    rw [heq]
    exact ih
  | step h hstep ih => rw [step_position_add_inBuf h.inv hstep, ih]
  | resets => rfl

end Sys2Proof.Machine
end

section
/-! SUPPORT. The sequential reading of a command stream, how it goes on when bytes follow, and that every history of host and
core gives it (20_memory R36, R40, 70_reset R102). -/

namespace Sys2Proof.Machine

/-! ### The reading of a stream -/

/-- A reading with records before it. -/
def Reading.after (x : Reading) (records : List Byte) : Reading := { x with records := records ++ x.records }

@[simp] theorem Reading.after_nil (x : Reading) : x.after [] = x := rfl

@[simp] theorem Reading.after_after (x : Reading) (a b : List Byte) : (x.after b).after a = x.after (a ++ b) := by
  simp [Reading.after]

/-- A command's reading is its record, then the reading of what follows from the registers it leaves. -/
theorem readStream_succ_of_command {bs rest : List Byte} {i : Instr} (h : decode bs = .command i rest) (fuel : Nat)
    (r : RegFile) :
    readStream (fuel + 1) r bs = (readStream fuel (runAlone i r).2 rest).after (runAlone i r).1 := by
  rw [readStream, h]
  rfl

/-- Bytes that hold no complete command are left over, whatever the fuel. -/
theorem readStream_of_incomplete {bs : List Byte} (h : isComplete bs = false) (fuel : Nat) (r : RegFile) :
    readStream fuel r bs = { records := [], regs := r, left := bs } := by
  cases fuel with
  | zero => rfl
  | succ fuel =>
    rw [readStream]
    split
    · next i rest hdecode => simp [isComplete_iff.mpr ⟨i, rest, hdecode⟩] at h
    · rfl

/-- A stream is read with any fuel that its bytes do not exceed. -/
theorem readStream_eq_reading {fuel : Nat} {bs : List Byte} (h : bs.length ≤ fuel) (r : RegFile) :
    readStream fuel r bs = reading r bs := by
  induction fuel using Nat.strong_induction_on generalizing bs r with
  | _ fuel ih =>
    cases hcomplete : isComplete bs with
    | false => rw [reading, readStream_of_incomplete hcomplete, readStream_of_incomplete hcomplete]
    | true =>
      obtain ⟨i, rest, hdecode⟩ := isComplete_iff.mp hcomplete
      have hrest := length_lt_of_decode hdecode
      obtain ⟨m, hm⟩ : ∃ m, bs.length = m + 1 := ⟨bs.length - 1, by omega⟩
      obtain ⟨k, rfl⟩ : ∃ k, fuel = k + 1 := ⟨fuel - 1, by omega⟩
      rw [reading, hm, readStream_succ_of_command hdecode, readStream_succ_of_command hdecode,
        ih k (by omega) (by omega), ih m (by omega) (by omega)]

theorem reading_of_incomplete {bs : List Byte} (h : isComplete bs = false) (r : RegFile) :
    reading r bs = { records := [], regs := r, left := bs } :=
  readStream_of_incomplete h bs.length r

theorem reading_of_command {bs rest : List Byte} {i : Instr} (h : decode bs = .command i rest) (r : RegFile) :
    reading r bs = (reading (runAlone i r).2 rest).after (runAlone i r).1 := by
  have hrest := length_lt_of_decode h
  rw [← readStream_eq_reading (Nat.le_succ bs.length), readStream_succ_of_command h,
    readStream_eq_reading (Nat.le_of_lt hrest)]

/-- A reading gone on with when more bytes follow those read. -/
def Reading.extend (x : Reading) (more : List Byte) : Reading := (reading x.regs (x.left ++ more)).after x.records

theorem Reading.extend_after (x : Reading) (records more : List Byte) :
    (x.after records).extend more = (x.extend more).after records :=
  (Reading.after_after _ _ _).symm

/-- The reading of a longer stream is that of its first part gone on with: no command read is read differently because more
bytes follow it. -/
theorem reading_append (r : RegFile) (bs more : List Byte) : reading r (bs ++ more) = (reading r bs).extend more := by
  induction hn : bs.length using Nat.strong_induction_on generalizing bs r with
  | _ n ih =>
    cases hcomplete : isComplete bs with
    | false =>
      rw [reading_of_incomplete hcomplete]
      exact (Reading.after_nil _).symm
    | true =>
      obtain ⟨i, rest, hdecode⟩ := isComplete_iff.mp hcomplete
      rw [reading_of_command (decode_append hdecode more), reading_of_command hdecode, Reading.extend_after,
        ih _ (hn ▸ length_lt_of_decode hdecode) _ _ rfl]

/-! ### The reading along a history -/

/-- What a core has still to answer: the response bytes not yet taken, then the reading of the command bytes at hand. -/
def State.pending (s : State) : Reading := (reading s.regs s.commandBytes).after s.responseStream

/-- No step changes what is still to be answered: a command executed moves its record from the reading to the response
stream. -/
theorem step_pending {s t : State} (hstep : step s = .next t) : t.pending = s.pending := by
  obtain ⟨-, rfl⟩ | ⟨-, b, rest, hemit, rfl⟩ | ⟨-, -, i, rest, hdecode, hexec⟩ | ⟨-, -, -, rfl⟩ := step_cases hstep
  · rfl
  · rw [State.pending, State.responseStream_emitByte hemit]
    rfl
  · rw [exec_eq_runAlone] at hexec
    obtain rfl := Host.Outcome.next.inj hexec
    rw [State.pending, State.pending, reading_of_command hdecode, Reading.after_after, State.responseStream_enqueue]
    rfl
  · rw [State.pending, State.commandBytes_hold]
    rfl

/-- A pushed byte goes on with what is still to be answered. -/
theorem State.pending_of_push {s t : State} {b : Byte} (hpush : s.push b = some t) :
    t.pending = s.pending.extend [b] := by
  rw [State.pending, State.commandBytes_of_push hpush, reading_append, State.pending, Reading.extend_after]
  obtain ⟨-, rfl⟩ := State.push_some hpush
  rfl

/-- A taken byte was the first one still to be answered. -/
theorem State.pending_of_take {s t : State} {b : Byte} (htake : s.take = some (b, t)) :
    s.pending = t.pending.after [b] := by
  obtain ⟨hout, heq⟩ := State.take_some htake
  rw [State.pending, State.responseStream, hout, heq, State.pending, Reading.after_after]
  rfl

/-- In every history, what was taken and what is still to be answered are the reading of what was pushed. -/
theorem History.pending_after {pushed taken : List Byte} {s : State} (h : History pushed taken s) :
    s.pending.after taken = reading RegFile.reset pushed := by
  induction h with
  | start => rfl
  | push _ hpush ih => rw [State.pending_of_push hpush, ← Reading.extend_after, ih, ← reading_append]
  | take _ htake ih => rw [← ih, State.pending_of_take htake, Reading.after_after]
  | step _ hstep ih => rw [step_pending hstep, ih]
  | resets => rfl

/-- Settles O59: the parts of `History.pending_after`. -/
theorem everyHistoryIsTheSequentialReading : Obligations.EveryHistoryIsTheSequentialReading := by
  intro pushed taken s h
  have hreading := h.pending_after
  rw [State.pending, Reading.after_after] at hreading
  rw [← hreading]
  exact ⟨rfl, rfl, rfl⟩

/-- Settles O60: with the input buffer empty the bytes at hand are the decoder's, which hold no complete command and so
have nothing to answer. -/
theorem idleCoreHasAnsweredEveryCommand : Obligations.IdleCoreHasAnsweredEveryCommand := by
  intro pushed taken s h hemit hin
  have hreading := h.pending_after
  have hat : s.commandBytes = s.decoder := by rw [State.commandBytes, hin, List.append_nil]
  have hresponse : s.responseStream = s.outBuf := by rw [State.responseStream, hemit, List.append_nil]
  rw [State.pending, hat, hresponse, reading_of_incomplete h.inv.decoder_incomplete, Reading.after_after] at hreading
  rw [← hreading]
  exact ⟨by simp [Reading.after], rfl, rfl⟩

end Sys2Proof.Machine
end
